-- ==== Sys2Proof/Word.lean ====
section
/-! DEFINITION. The word types of rule R9 (00_scope.md): every value is unsigned. -/

namespace Sys2Proof

/-- A byte, `0..255` (R9). -/
abbrev Byte := BitVec 8

/-- A Word16, `0..65535` (R9). -/
abbrev Word16 := BitVec 16

/-- A Word32, `0..2^32-1` (R9). -/
abbrev Word32 := BitVec 32

/-- The Control Flags and the masks over them. `FLAGS_W` is at most 16 (R7), so a flags value stands in the
low `FLAGS_W` bits of 16; the bits above are zero (log 8). -/
abbrev Flags := BitVec 16

end Sys2Proof
end

