-- ==== Sys2Proof/Config.lean ====
section
/-! DEFINITION. The configuration record `Cfg` of rule R7 (00_scope.md) as plain data, and the free values. -/

namespace Sys2Proof

/-- One entry of `FIELDS` (R7, R170): the flag bit that marks the header field present, its width in bytes, its
name. The block uses masks and widths only (R75). -/
structure Field where
  mask  : Flags
  width : Nat
  name  : String
  deriving DecidableEq, Repr

/-- Which function `Cfg.HamDecode` is (R7, R150). A state holds plain data, so `Cfg` names the function and
`hamdec` applies it. DESIGN CHOICE, log 2. -/
inductive HamFn where
  /-- The reference instance, rules R152 to R155. -/
  | elp
  /-- Any other total function: the uninterpreted `Config.otherHamDecode id`. -/
  | other (id : Nat)
  deriving DecidableEq, Repr

/-- Which function `Cfg.Crc32` is (R7, R185), named in the same way. DESIGN CHOICE, log 2. -/
inductive CrcFn where
  /-- The reference instance, rule R189. -/
  | isoHdlc
  /-- Any other total function: the uninterpreted `Config.otherCrc32 id`. -/
  | other (id : Nat)
  deriving DecidableEq, Repr

/-- The immutable configuration record: the thirteen fields of R7 and D2, in R7's order. The three widths are fixed by the
source, and `Cfg.wf` holds them to 2, 2 and 4. -/
structure Cfg where
  /-- `LEADER`, the configured leader byte. -/
  leader : Byte
  /-- `ESC`, the configured escape byte. -/
  esc    : Byte
  /-- `N`, the required leader length. -/
  n      : Nat
  /-- `CW_WIDTH`, the bytes of the control word; fixed 2. -/
  cwWidth   : Nat
  /-- `DLEN_WIDTH`, the bytes of the data-length field; fixed 2. -/
  dlenWidth : Nat
  /-- `CRC_WIDTH`, the bytes of the checksum trailer; fixed 4. -/
  crcWidth  : Nat
  /-- `MAX_HDR`, the maximum header size. -/
  maxHdr : Nat
  /-- `FLAGS_W`, the width of the flags bitmask. -/
  flagsW : Nat
  /-- `F_DATA`, the data-present indicator bit. -/
  fData  : Flags
  /-- `F_CRC`, the checksum-present indicator bit. -/
  fCrc   : Flags
  /-- `FIELDS`, the ordered header field table. -/
  fields : List Field
  /-- `HamDecode`. -/
  ham    : HamFn
  /-- `Crc32`. -/
  crc    : CrcFn
  deriving DecidableEq, Repr

/-- A `HamDecode` of which nothing is known but that it is total (R150, U3, U4). No body: free. Log 2. -/
opaque Config.otherHamDecode : Nat → Word16 → Flags

/-- A `Crc32` of which nothing is known but that it is total and deterministic (R185, U8). No body: free. Log 2. -/
opaque Config.otherCrc32 : Nat → List Byte → Word32

/-- `FLDOFF(flags, fmask)` where R172 does not define it (the field is not present): a free value, a function of
`FIELDS`, `flags` and `fmask`. DESIGN CHOICE, log 11. -/
opaque Config.absentFieldOffset : List Field → Flags → Flags → Nat

end Sys2Proof
end

