-- ==== Sys2Proof/Syntax.lean ====
section
/-! DEFINITION. The operations of the block (rule R5), one constructor per row of spec/opcode_table.json, and the
small types their operands and selectors use. -/

namespace Sys2Proof

/-- The Parse State (R21). -/
inductive ParseState where
  | findStart
  | readControlWord
  | readHeader
  | readData
  | readChecksum
  deriving DecidableEq, Repr

/-- Cause codes 0 to 4 of R220, as they stand in a `Diag` event. -/
inductive Cause where
  /-- 0, never emitted; the null value. -/
  | none
  /-- 1, a sync cut a frame in progress (R221). -/
  | resync
  /-- 2, the header index reached `MAX_HDR` (R222). -/
  | hdrBound
  /-- 3, the checksum does not match (R223). -/
  | crcMismatch
  /-- 4, the host's deserializer failed; never emitted by the block (R224). -/
  | deserFail
  deriving DecidableEq, Repr

/-- The causes the block itself raises (R203, R220): the operand of `DISCARD`. Log 19. -/
inductive DiscardCause where
  | resync
  | hdrBound
  | crcMismatch
  deriving DecidableEq, Repr

/-- The five operations of the filter (R81). -/
inductive FilterOp where
  | ldrSync
  | ldrPass
  | escDrop
  | escPass
  | litPass
  deriving DecidableEq, Repr

/-- What can stand at the block's inputs (R208): one byte, a byte sequence given by one `INGEST` call (R206), or the
reset input (R250). -/
inductive Input where
  | byte (b : Byte)
  | chunk (bs : List Byte)
  | reset
  deriving DecidableEq, Repr

/-- The operations, in the order of spec/opcode_table.json. A filter or state-machine operation has the input byte
as its operand (R101 to R105, R121 to R128). -/
inductive Instr where
  /-- `LDR_SYNC` (R102). -/
  | ldrSync (b : Byte)
  /-- `LDR_PASS` (R101). -/
  | ldrPass (b : Byte)
  /-- `ESC_DROP` (R103). -/
  | escDrop (b : Byte)
  /-- `ESC_PASS` (R104). -/
  | escPass (b : Byte)
  /-- `LIT_PASS` (R105). -/
  | litPass (b : Byte)
  /-- `ST_FIND` (R121). -/
  | stFind (b : Byte)
  /-- `ST_CW` (R122). -/
  | stCw (b : Byte)
  /-- `ST_HDR` (R123). -/
  | stHdr (b : Byte)
  /-- `ST_DATA` (R126). -/
  | stData (b : Byte)
  /-- `ST_CRC` (R128). -/
  | stCrc (b : Byte)
  /-- `HAMDEC` (R150). -/
  | hamdec
  /-- `HDRLEN` (R171). -/
  | hdrlen
  /-- `FLDOFF` of the field with mask `fmask` (R172). -/
  | fldoff (fmask : Flags)
  /-- `DLEN_LATCH` (R124). -/
  | dlenLatch
  /-- `HDR_DONE` (R125). -/
  | hdrDone
  /-- `DATA_DONE` (R127). -/
  | dataDone
  /-- `CRCCHK` (R188). -/
  | crcchk
  /-- `DISPATCH` (R201). -/
  | dispatch
  /-- `DISCARD` with its cause (R203). -/
  | discard (cause : DiscardCause)
  /-- `FRAME_RESET` (R204). -/
  | frameReset
  /-- `INGEST` of a byte sequence (R206). -/
  | ingest (bs : List Byte)
  /-- `HW_RESET` (R250). -/
  | hwReset
  deriving DecidableEq, Repr

end Sys2Proof
end

