-- ==== Sys2Proof/WellFormed.lean ====
section
/-! DEFINITION. The constraints of rule R7 on a configuration, and which operands an operation may have. -/

namespace Sys2Proof

/-- Exactly one bit of the mask is set, and it lies inside the low `w` bits. -/
def singleBit (w : Nat) (m : Flags) : Bool :=
  (List.range w).any fun i => m == BitVec.ofNat 16 (2 ^ i)

/-- The constraints of R7 on `FIELDS`: masks single-bit and pairwise distinct, none equal to `F_CRC`, widths at least
1, exactly one entry with mask `F_DATA`, and that one 2 bytes wide. -/
def Cfg.fieldsWf (c : Cfg) : Bool :=
  c.fields.all (fun f => singleBit c.flagsW f.mask && f.mask != c.fCrc && decide (1 ≤ f.width))
    && decide (c.fields.map (·.mask)).Nodup
    && c.fields.any (fun f => f.mask == c.fData)
    && c.fields.all (fun f => f.mask != c.fData || f.width == 2)

/-- The three widths that the source fixes (R7, D2). -/
def Cfg.widthsWf (c : Cfg) : Bool :=
  decide (c.cwWidth = 2) && (decide (c.dlenWidth = 2) && decide (c.crcWidth = 4))

/-- The constraints of R7 on `FLAGS_W`, `F_DATA` and `F_CRC`. The reference decoder yields 11-bit flags (R155), so with it
`FLAGS_W` is 11 (DEDUCED, log 18). -/
def Cfg.flagsWf (c : Cfg) : Bool :=
  decide (1 ≤ c.flagsW) && (decide (c.flagsW ≤ 16) && (singleBit c.flagsW c.fData && (singleBit c.flagsW c.fCrc
    && (c.fCrc != c.fData && (c.ham != .elp || c.flagsW == 11)))))

/-- A legal configuration (R7, R251, D3). -/
def Cfg.wf (c : Cfg) : Bool :=
  decide (2 ≤ c.n) && (decide (2 ≤ c.maxHdr) && (c.esc != c.leader
    && (c.widthsWf && (c.flagsWf && c.fieldsWf))))

/-- Which operands belong to an operation under a configuration: the byte classes of R81, and for `FLDOFF` the mask
of an entry of `FIELDS` (R172). -/
def Instr.wf (c : Cfg) : Instr → Bool
  | .ldrSync b => b == c.leader
  | .ldrPass b => b == c.leader
  | .escDrop b => b == c.esc
  | .escPass b => b == c.esc
  | .litPass b => b != c.leader && b != c.esc
  | .fldoff m => c.fields.any (fun f => f.mask == m)
  | .stFind _ => true
  | .stCw _ => true
  | .stHdr _ => true
  | .stData _ => true
  | .stCrc _ => true
  | .hamdec => true
  | .hdrlen => true
  | .dlenLatch => true
  | .hdrDone => true
  | .dataDone => true
  | .crcchk => true
  | .dispatch => true
  | .discard _ => true
  | .frameReset => true
  | .ingest _ => true
  | .hwReset => true

end Sys2Proof
end

