-- ==== Sys2Proof/Decode.lean ====
section
/-! DEFINITION. The operation decode (rules R81, R82 of 30_encoding.md), and the encoder beside it. -/

namespace Sys2Proof

/-- What selects an operation (R70(b), R82, R250). -/
inductive Selector where
  /-- What stands at the block's input, with `run` as it is before the step: the FILTER rows (R81), INGEST, the reset
  input. -/
  | port (run : Nat) (inp : Input)
  /-- A byte the filter passed, with the 3-bit code of `state`: the STATE rows (R82). -/
  | passed (code : BitVec 3) (b : Byte)
  deriving DecidableEq, Repr

/-- Why a selector is no operation. -/
inductive DecodeError where
  /-- State codes 5, 6, 7 stand for no state (R21, U10). -/
  | reservedStateCode (code : BitVec 3)
  deriving DecidableEq, Repr

/-- The state codes of R21. -/
def ParseState.code : ParseState → BitVec 3
  | .findStart => 0
  | .readControlWord => 1
  | .readHeader => 2
  | .readData => 3
  | .readChecksum => 4

/-- The state a code stands for, if any (R21). -/
def ParseState.ofCode (code : BitVec 3) : Option ParseState :=
  if code = 0 then some .findStart
  else if code = 1 then some .readControlWord
  else if code = 2 then some .readHeader
  else if code = 3 then some .readData
  else if code = 4 then some .readChecksum
  else none

/-- The cause codes of R220. -/
def Cause.code : Cause → BitVec 3
  | .none => 0
  | .resync => 1
  | .hdrBound => 2
  | .crcMismatch => 3
  | .deserFail => 4

/-- The cause as the `Diag` event carries it (R220). -/
def DiscardCause.toCause : DiscardCause → Cause
  | .resync => .resync
  | .hdrBound => .hdrBound
  | .crcMismatch => .crcMismatch

/-- Filter decode, R81, the rows tested top to bottom. `run` never exceeds `N-1` between steps (R107); for such a
`run` the second test is the table's `run < N-1`, and beyond it R132's `else` is followed (DEDUCED, log 12). -/
def filterOp (c : Cfg) (run : Nat) (b : Byte) : FilterOp :=
  if b = c.leader ∧ run + 1 = c.n then .ldrSync
  else if b = c.leader then .ldrPass
  else if b = c.esc ∧ run + 1 = c.n then .escDrop
  else if b = c.esc then .escPass
  else .litPass

/-- A filter operation with its operand. -/
def FilterOp.instr : FilterOp → Byte → Instr
  | .ldrSync, b => .ldrSync b
  | .ldrPass, b => .ldrPass b
  | .escDrop, b => .escDrop b
  | .escPass, b => .escPass b
  | .litPass, b => .litPass b

/-- What the block does with what stands at its input (R81, R206, R250). -/
def decodePort (c : Cfg) (run : Nat) : Input → Instr
  | .byte b => (filterOp c run b).instr b
  | .chunk bs => .ingest bs
  | .reset => .hwReset

/-- State-machine decode, R82. -/
def stateInstr : ParseState → Byte → Instr
  | .findStart, b => .stFind b
  | .readControlWord, b => .stCw b
  | .readHeader, b => .stHdr b
  | .readData, b => .stData b
  | .readChecksum, b => .stCrc b

/-- State-machine decode from the 3-bit code; a code that stands for no state is rejected by name (U10). -/
def decodePassed (code : BitVec 3) (b : Byte) : Except DecodeError Instr :=
  match ParseState.ofCode code with
  | some st => .ok (stateInstr st b)
  | none => .error (.reservedStateCode code)

/-- The decoder: total on every selector (R81, R82, R83). -/
def decode (c : Cfg) : Selector → Except DecodeError Instr
  | .port run inp => .ok (decodePort c run inp)
  | .passed code b => decodePassed code b

/-- The encoder: a selector that selects the operation, if it has one. LDR_PASS and ESC_PASS are given at `run = 0`,
LIT_PASS too. The ten micro-operations have no encoding (R82). -/
def encode (c : Cfg) : Instr → Option Selector
  | .ldrSync b => some (.port (c.n - 1) (.byte b))
  | .ldrPass b => some (.port 0 (.byte b))
  | .escDrop b => some (.port (c.n - 1) (.byte b))
  | .escPass b => some (.port 0 (.byte b))
  | .litPass b => some (.port 0 (.byte b))
  | .stFind b => some (.passed 0 b)
  | .stCw b => some (.passed 1 b)
  | .stHdr b => some (.passed 2 b)
  | .stData b => some (.passed 3 b)
  | .stCrc b => some (.passed 4 b)
  | .ingest bs => some (.port 0 (.chunk bs))
  | .hwReset => some (.port 0 .reset)
  | .hamdec => none
  | .hdrlen => none
  | .fldoff _ => none
  | .dlenLatch => none
  | .hdrDone => none
  | .dataDone => none
  | .crcchk => none
  | .dispatch => none
  | .discard _ => none
  | .frameReset => none

/-- The 3-bit state code and the passed byte that a word of spec/opcode_table.json stands for. The table gives numeric
bits to the STATE rows only (mask `0x7` over the state register), so the byte is taken from bits 15..8, which it does
not number. A row of fewer than 3 bits has no word. DESIGN CHOICE, log 14. -/
def tableFields (nbits w : Nat) : Option (BitVec 3 × Byte) :=
  if nbits < 3 then none
  else some (BitVec.ofNat 3 (w % 2 ^ nbits), BitVec.ofNat 8 (w % 2 ^ nbits / 256))

/-- The instruction the decoder reads from a word of spec/opcode_table.json (log 14). -/
def decodeTableWord (nbits w : Nat) : Option Instr :=
  match tableFields nbits w with
  | some (code, b) => (decodePassed code b).toOption
  | none => none

end Sys2Proof
end

