-- ==== Sys2Proof/Machine/Profiles.lean ====
section
/-! DEFINITION. The three named instances of `Cfg` (rule R8). None of their values is in the source of the spec; the
spec marks them as general knowledge (GK1 to GK4). -/

namespace Sys2Proof

/-- The reference field table, in wire order (R174). -/
def fieldsElp : List Field :=
  [⟨0x400, 1, "NETSTATE"⟩, ⟨0x200, 2, "SERVICE"⟩, ⟨0x100, 2, "SRCADDR"⟩, ⟨0x080, 2, "DESTADDR"⟩,
   ⟨0x040, 2, "NEXTADDR"⟩, ⟨0x020, 2, "SEQNUM"⟩, ⟨0x010, 4, "ACKBLOCK"⟩, ⟨0x008, 2, "CONTEXTID"⟩,
   ⟨0x004, 1, "DATATYPE"⟩, ⟨0x002, 2, "DATALEN"⟩]

/-- `P_ELP`, the reference profile (R8). -/
def Cfg.pElp : Cfg where
  leader := 0x3C
  esc    := 0xC3
  n      := 4
  cwWidth   := 2
  dlenWidth := 2
  crcWidth  := 4
  maxHdr := 22
  flagsW := 11
  fData  := 0x002
  fCrc   := 0x001
  fields := fieldsElp
  ham    := .elp
  crc    := .isoHdlc

/-- `P_DOC3` (R8). -/
def Cfg.pDoc3 : Cfg := { Cfg.pElp with n := 3 }

/-- `P_SMALL` (R8). -/
def Cfg.pSmall : Cfg := { Cfg.pElp with maxHdr := 8 }

end Sys2Proof
end

