-- ==== Sys2Proof/Machine/State.lean ====
section
/-! DEFINITION. The state of the block (rule R20), the events it emits (R32, R202, R231), and how a step can stop. -/

namespace Sys2Proof.Machine

/-- The frame buffer's memory (R50): the written cells, addresses strictly rising (`Memory.wf`). An address that is
not listed holds no value. -/
abbrev Memory := List Host.Cell

/-- An output of the block (R32). -/
inductive Event where
  /-- The hand-off of a completed frame: the whole de-stuffed frame, the corrected flags, the header length, the data
  length (R202). -/
  | dispatch (frame : List Byte) (flags : Flags) (hdrLen : Nat) (dataLen : Word16)
  /-- A frame was discarded: the cause, the parse state and the buffer length before the reset (R231). -/
  | diag (cause : Cause) (stateAt : ParseState) (lenAt : Nat)
  deriving DecidableEq, Repr

/-- What a micro-operation that writes no register hands to its caller (R150, R170, R185), log 5. -/
inductive MicroOut where
  /-- The decoded flags, from HAMDEC (R150). -/
  | flags (fl : Flags)
  /-- The header length, from HDRLEN (R171). -/
  | length (len : Nat)
  /-- A byte offset, from FLDOFF (R172). -/
  | offset (off : Nat)
  /-- Match or mismatch, from CRCCHK (R188). -/
  | verdict (ok : Bool)
  deriving DecidableEq, Repr

/-- The state. The first ten fields are R20's record, in its order; the last four are the model's own (INVENTORY.md). -/
structure State where
  /-- `state`, the Parse State (R21). -/
  state   : ParseState
  /-- `run`, the leader-run counter (R22). -/
  run     : Nat
  /-- `buf`, the Frame Buffer (R23, R50). -/
  buf     : Memory
  /-- `buf_len`, the number of bytes in it (R20). -/
  bufLen  : Nat
  /-- `hdr_idx`, the header byte index (R24). -/
  hdrIdx  : Nat
  /-- `data_idx`, the data byte index (R25). -/
  dataIdx : Nat
  /-- `crc_idx`, the checksum byte index (R26). -/
  crcIdx  : Nat
  /-- `flags`, the Control Flags (R27). -/
  flags   : Flags
  /-- `hdr_len`, the Header Length (R28). -/
  hdrLen  : Nat
  /-- `data_len`, the Data Length (R29). -/
  dataLen : Word16
  /-- The configuration of this instance (R7, R31), log 1. -/
  cfg     : Cfg
  /-- What stands at the inputs, next first (R206, R208), log 3. -/
  input   : List Input
  /-- The events emitted so far, oldest first (R32, R207), log 4. -/
  events  : List Event
  /-- The value handed over by the last HAMDEC, HDRLEN, FLDOFF or CRCCHK executed alone, log 5. -/
  ret     : Option MicroOut
  deriving DecidableEq, Repr

/-- Why a step stops. Both are SAFE: the spec shows that neither access happens in a reachable state (R52, R57). -/
inductive Fault where
  /-- Raised by `memRead`: `MemRead(addr, n)` would read a buffer byte that was never written; R52 defines the read
  only within `buf_len`. Safe: no run from reset reaches it. Log 9. -/
  | unwrittenRead (addr n : Nat)
  /-- Raised by `bufAppend`: the append would leave the address space `0 .. BUF_CAP-1` (R50, R57). Safe: no run from
  reset reaches it. Log 10. -/
  | bufferFull (len : Nat)
  deriving DecidableEq, Repr

/-- Why an instruction is refused. -/
inductive Refusal where
  /-- Raised by `exec` for an instruction that has no meaning yet; no arm of this model is one. Safe. -/
  | notModelled (mnemonic : String)
  /-- Raised by `step` for an instance whose `Cfg` breaks a constraint of R7: U1 says refuse. Safe: the spec claims
  nothing of such an instance. Log 13. -/
  | illFormedCfg
  deriving DecidableEq, Repr

/-- An instance right after construction with configuration `c` (R36, R250, R251). -/
def State.resetWith (c : Cfg) : State where
  state   := .findStart
  run     := 0
  buf     := []
  bufLen  := 0
  hdrIdx  := 0
  dataIdx := 0
  crcIdx  := 0
  flags   := 0
  hdrLen  := 0
  dataLen := 0
  cfg     := c
  input   := []
  events  := []
  ret     := none

/-- The machine right after reset (R36), with the reference profile as its configuration (PRESUMED, log 1). -/
def State.reset : State := State.resetWith Cfg.pElp

end Sys2Proof.Machine
end

