-- ==== Sys2Proof/Machine/Flags.lean ====
section
/-! DEFINITION. The Control Flags (rules R27, R75): which bits of a decoded control word the block tests. -/

namespace Sys2Proof.Machine

/-- `flags and mask != 0` (R9, R171). -/
def flagSet (flags mask : Flags) : Bool := flags &&& mask != 0

/-- The data-present flag is set (R27, R75). -/
def State.hasData (s : State) : Bool := flagSet s.flags s.cfg.fData

/-- The checksum-present flag is set (R27, R75). -/
def State.hasCrc (s : State) : Bool := flagSet s.flags s.cfg.fCrc

/-- The `FLAGS_W` bits a flags value has (R7): what a decoder yields is that wide. -/
def flagsMask (c : Cfg) : Flags := BitVec.ofNat 16 (2 ^ c.flagsW - 1)

end Sys2Proof.Machine
end

