-- ==== Sys2Proof/Machine/Operands.lean ====
section
/-! DEFINITION. Values assembled from buffer bytes (rules R9, R53, R85): unsigned, most significant byte first. -/

namespace Sys2Proof.Machine

/-- The natural that a byte sequence stands for, most significant byte first: `BE16` and `BE32` of R9 without their
width. -/
def beNat (bs : List Byte) : Nat := bs.foldl (fun acc b => acc * 256 + b.toNat) 0

/-- `BE16` (R9): the control word and the data length (R85). -/
def be16 (bs : List Byte) : Word16 := BitVec.ofNat 16 (beNat bs)

/-- `BE32` (R9): the received checksum (R85). -/
def be32 (bs : List Byte) : Word32 := BitVec.ofNat 32 (beNat bs)

/-- The `width` bytes of a natural, most significant first: the inverse used on the sender's side (R84). Of a natural that does
not fit, the low `width` bytes: R84 leaves that open (DESIGN CHOICE, log 21). -/
def beBytes : Nat → Nat → List Byte
  | 0, _ => []
  | width + 1, v => beBytes width (v / 256) ++ [BitVec.ofNat 8 v]

end Sys2Proof.Machine
end

