-- ==== Sys2Proof/Machine/Ops.lean ====
section
/-! DEFINITION. The named operations over the frame buffer and the state: read, append, emit, the frame reset, taking
an exception (a frame discard), the hand-off. -/

namespace Sys2Proof.Machine

/-- An operation that gives a value or stops with a fault. -/
abbrev Res (α : Type) := Except Fault α

/-- The outcome of an instruction from the result of its operation. -/
def finish : Res State → Host.Outcome State Fault Refusal
  | .ok s => .next s
  | .error f => .fault f

/-- The canonical form: addresses strictly rising. -/
abbrev Memory.wf (m : Memory) : Prop := m.Pairwise (fun x y => x.1 < y.1)

/-- One byte; `none` where nothing was written (R52). -/
def Memory.read : Memory → Nat → Option Byte
  | [], _ => none
  | (a, b) :: m, x => if x = a then some b else Memory.read m x

/-- Write one byte, keeping the cells in rising order. -/
def Memory.write : Memory → Nat → Byte → Memory
  | [], x, v => [(x, v)]
  | (a, b) :: m, x, v =>
    if x < a then (x, v) :: (a, b) :: m
    else if x = a then (x, v) :: m
    else (a, b) :: Memory.write m x v

/-- The bytes at `addr .. addr+n-1`, if all of them were written. -/
def Memory.readRange (m : Memory) : Nat → Nat → Option (List Byte)
  | _, 0 => some []
  | addr, n + 1 =>
    match m.read addr, m.readRange (addr + 1) n with
    | some b, some bs => some (b :: bs)
    | _, _ => none

/-- `MemRead(addr, n)` (R52). Outside what was written the read is not defined: it faults (log 9). -/
def memRead (s : State) (addr n : Nat) : Res (List Byte) :=
  match s.buf.readRange addr n with
  | some bs => .ok bs
  | none => .error (.unwrittenRead addr n)

/-- The capacity `BUF_CAP` (R57): the longest header, the longest data, the trailer. -/
def bufCap (c : Cfg) : Nat := c.maxHdr + 65535 + c.crcWidth

/-- `BufAppend(b)` (R51): write at index `buf_len`, then count it. An index outside the address space faults (log 10). -/
def bufAppend (b : Byte) (s : State) : Res State :=
  if s.bufLen < bufCap s.cfg then
    .ok { s with buf := s.buf.write s.bufLen b, bufLen := s.bufLen + 1 }
  else .error (.bufferFull s.bufLen)

/-- `emit e` (R9, R32). -/
def emit (e : Event) (s : State) : State := { s with events := s.events ++ [e] }

/-- `FRAME_RESET`: the one reset routine (R204, R58). -/
def frameReset (s : State) : State :=
  { s with
    buf := [], bufLen := 0
    hdrIdx := 0, dataIdx := 0, crcIdx := 0
    run := 0
    flags := 0, hdrLen := 0, dataLen := 0
    state := .findStart }

/-- Taking an exception: `DISCARD`, which is what `raise <Cause>(state, buf_len)` stands for (R203, R228). The event's
values are read before the reset. Control goes to `FindStart`; after RESYNC the caller then sets `ReadControlWord`
(R102). There is no return from it: the next byte is processed from the reset state (R229). -/
def discardFrame (cause : DiscardCause) (s : State) : State :=
  frameReset (emit (.diag cause.toCause s.state s.bufLen) s)

/-- `DISPATCH`: hand the completed frame over, a copy of the whole buffer, then reset (R201, R202, R64). -/
def dispatchFrame (s : State) : Res State := do
  let frame ← memRead s 0 s.bufLen
  .ok (frameReset (emit (.dispatch frame s.flags s.hdrLen s.dataLen) s))

end Sys2Proof.Machine
end

