-- ==== Sys2Proof/Machine/Crc.lean ====
section
/-! DEFINITION. The checksum verifier (44_crc.md): the check R188 and the reference `Crc32` R189. -/

namespace Sys2Proof.Machine

/-- One shift of the reference CRC register (R189). -/
def crcShift (c : Word32) : Word32 := if c.getLsbD 0 then (c >>> 1) ^^^ 0xEDB88320 else c >>> 1

/-- One byte into the reference CRC register: XOR it in, then shift 8 times (R189). -/
def crcByte (c : Word32) (b : Byte) : Word32 :=
  crcShift (crcShift (crcShift (crcShift (crcShift (crcShift (crcShift (crcShift (c ^^^ b.setWidth 32))))))))

/-- The reference `Crc32` (R189). -/
def crc32Iso (bs : List Byte) : Word32 := bs.foldl crcByte 0xFFFFFFFF ^^^ 0xFFFFFFFF

/-- `Cfg.Crc32` (R7, R185). -/
def crc32 (c : Cfg) (bs : List Byte) : Word32 :=
  match c.crc with
  | .isoHdlc => crc32Iso bs
  | .other id => Config.otherCrc32 id bs

/-- `CRCCHK`: is the CRC of the buffer before its trailer the value of the trailer's `CRC_WIDTH` bytes (R186 to R188)?
With fewer bytes there is no trailer to read: it faults (log 9). -/
def crcMatches (s : State) : Res Bool :=
  if s.bufLen < s.cfg.crcWidth then .error (.unwrittenRead 0 s.cfg.crcWidth)
  else do
    let region ← memRead s 0 (s.bufLen - s.cfg.crcWidth)
    let trailer ← memRead s (s.bufLen - s.cfg.crcWidth) s.cfg.crcWidth
    .ok (crc32 s.cfg region == be32 trailer)

/-- `CRCCHK` (R188): writes nothing of the block; the verdict is handed over in `ret` (log 5). -/
def execCrcchk (s : State) : Host.Outcome State Fault Refusal :=
  finish (do
    let ok ← crcMatches s
    .ok { s with ret := some (.verdict ok) })

end Sys2Proof.Machine
end

