-- ==== Sys2Proof/Machine/Hamming.lean ====
section
/-! DEFINITION. The control-word decoder (42_hamming.md): the contract R150 and the reference instance R152 to R155. -/

namespace Sys2Proof.Machine

/-- The XOR of the low `k` bits of `v`. -/
def parityUpTo (v : Word16) : Nat → Bool
  | 0 => false
  | k + 1 => parityUpTo v k ^^ v.getLsbD k

/-- `par(v)`: the XOR of all bits of `v` (R9). -/
def par (v : Word16) : Bool := parityUpTo v 16

/-- The syndrome of a word under the four check masks (R152, R153). -/
def syndrome (w : Word16) : Nat :=
  (par (w &&& 0x826F)).toNat + 2 * (par (w &&& 0x41B7)).toNat
    + 4 * (par (w &&& 0x24DB)).toNat + 8 * (par (w &&& 0x171D)).toNat

/-- The correction mask of a syndrome (R154). Syndromes 0, 1, 2, 4, 8 leave the word as it is. -/
def correctionMask (syn : Nat) : Word16 :=
  match syn with
  | 0x3 => 0x020
  | 0x5 => 0x040
  | 0x6 => 0x080
  | 0x7 => 0x002
  | 0x9 => 0x200
  | 0xA => 0x100
  | 0xB => 0x004
  | 0xC => 0x400
  | 0xD => 0x008
  | 0xE => 0x010
  | 0xF => 0x001
  | _ => 0

/-- The reference decoder: correct, then keep bits 10..0 (R154, R155). -/
def hamDecodeElp (raw : Word16) : Flags := (raw ^^^ correctionMask (syndrome raw)) &&& 0x07FF

/-- `HAMDEC(raw) = Cfg.HamDecode(raw)`, `FLAGS_W` bits wide (R150, R7). Never fails (R225). -/
def hamdec (c : Cfg) (raw : Word16) : Flags :=
  (match c.ham with
    | .elp => hamDecodeElp raw
    | .other id => Config.otherHamDecode id raw) &&& flagsMask c

/-- `HAMDEC` of the control word in the buffer, `raw = BE16(buf[0], buf[1])` (R150). -/
def hamdecBuf (s : State) : Res Flags := do
  let cw ← memRead s 0 s.cfg.cwWidth
  .ok (hamdec s.cfg (be16 cw))

/-- `flags <- HAMDEC(raw)`: the write that its caller `ST_CW` makes (R122). -/
def hamdecFlags (s : State) : Res State := do
  let fl ← hamdecBuf s
  .ok { s with flags := fl }

/-- `HAMDEC` (R150): writes no register of the block; the flags are handed over in `ret` (log 5). -/
def execHamdec (s : State) : Host.Outcome State Fault Refusal :=
  finish (do
    let fl ← hamdecBuf s
    .ok { s with ret := some (.flags fl) })

end Sys2Proof.Machine
end

