-- ==== Sys2Proof/Machine/Resolver.lean ====
section
/-! DEFINITION. The field length resolver (43_resolver.md): both functions from the one list `FIELDS`. -/

namespace Sys2Proof.Machine

/-- The widths of the entries whose flag is set, summed (R171, R172). -/
def presentWidth (flags : Flags) : List Field → Nat
  | [] => 0
  | f :: fs => (if flagSet flags f.mask then f.width else 0) + presentWidth flags fs

/-- `HDRLEN(flags)`: the control word and every present field (R171). -/
def hdrlen (c : Cfg) (flags : Flags) : Nat := c.cwWidth + presentWidth flags c.fields

/-- The entries that come before the one with mask `fmask` (R172). -/
def fieldsBefore (fmask : Flags) (fs : List Field) : List Field := fs.takeWhile (fun f => f.mask != fmask)

/-- The field with mask `fmask` is in the table and its flag is set (R172: where `FLDOFF` is defined). -/
def fieldPresent (c : Cfg) (flags fmask : Flags) : Bool :=
  flagSet flags fmask && c.fields.any (fun f => f.mask == fmask)

/-- `FLDOFF(flags, fmask)`: the byte offset of a present field from index 0 of `buf` (R172). Of a field that is not
present the offset is not defined: a free value (log 11). -/
def fldoff (c : Cfg) (flags fmask : Flags) : Nat :=
  if fieldPresent c flags fmask then c.cwWidth + presentWidth flags (fieldsBefore fmask c.fields)
  else Config.absentFieldOffset c.fields flags fmask

/-- `hdr_len <- HDRLEN(flags)`: the write that its caller `ST_CW` makes (R122). -/
def resolveHdrLen (s : State) : State := { s with hdrLen := hdrlen s.cfg s.flags }

/-- `HDRLEN` (R171): writes nothing of the block (R170); the length is handed over in `ret` (log 5). -/
def execHdrlen (s : State) : Host.Outcome State Fault Refusal :=
  finish (.ok { s with ret := some (.length (hdrlen s.cfg s.flags)) })

/-- `FLDOFF` (R172): writes no register of the block; the offset is handed over in `ret` (log 5). -/
def execFldoff (fmask : Flags) (s : State) : Host.Outcome State Fault Refusal :=
  finish (.ok { s with ret := some (.offset (fldoff s.cfg s.flags fmask)) })

end Sys2Proof.Machine
end

