-- ==== Sys2Proof/Machine/FrameFsm.lean ====
section
/-! DEFINITION. The frame state machine (41_frame_fsm.md). Every call of DISPATCH and every `raise` stands last in its
operation, so that the step ends there, as R201 and R228 say. -/

namespace Sys2Proof.Machine

/-- `DATA_DONE`: the data completion test (R127). -/
def dataDone (s : State) : Res State :=
  if s.dataIdx = s.dataLen.toNat then
    if s.hasCrc then .ok { s with state := .readChecksum }
    else dispatchFrame s
  else .ok s

/-- `HDR_DONE`: the header completion test (R125). -/
def hdrDone (s : State) : Res State :=
  if s.hdrIdx = s.hdrLen then
    if s.hasData then dataDone { s with state := .readData }
    else if s.hasCrc then .ok { s with state := .readChecksum }
    else dispatchFrame s
  else .ok s

/-- `DLEN_LATCH`: extract the data length at the first instant both its bytes are in the buffer (R124). -/
def dlenLatch (s : State) : Res State :=
  if s.hasData then
    if s.hdrIdx = fldoff s.cfg s.flags s.cfg.fData + s.cfg.dlenWidth then do
      let bytes ← memRead s (fldoff s.cfg s.flags s.cfg.fData) s.cfg.dlenWidth
      .ok { s with dataLen := be16 bytes }
    else .ok s
  else .ok s

/-- `ST_FIND`: the byte is discarded (R121). -/
def stFind (_b : Byte) (s : State) : Res State := .ok s

/-- What `ST_CW` does at the second control-word byte: decode the flags, resolve the header length, go to `ReadHeader`, test
for completion (R122). -/
def cwComplete (s : State) : Res State := do
  let s ← hamdecFlags s
  hdrDone { resolveHdrLen s with state := .readHeader }

/-- `ST_CW` (R122). -/
def stCw (b : Byte) (s : State) : Res State :=
  if s.cfg.maxHdr ≤ s.hdrIdx then .ok (discardFrame .hdrBound s)
  else do
    let s ← bufAppend b s
    let s : State := { s with hdrIdx := s.hdrIdx + 1 }
    if s.hdrIdx = s.cfg.cwWidth then cwComplete s else .ok s

/-- `ST_HDR` (R123). -/
def stHdr (b : Byte) (s : State) : Res State :=
  if s.cfg.maxHdr ≤ s.hdrIdx then .ok (discardFrame .hdrBound s)
  else do
    let s ← bufAppend b s
    let s ← dlenLatch { s with hdrIdx := s.hdrIdx + 1 }
    hdrDone s

/-- `ST_DATA` (R126). -/
def stData (b : Byte) (s : State) : Res State := do
  let s ← bufAppend b s
  dataDone { s with dataIdx := s.dataIdx + 1 }

/-- What `ST_CRC` does at the fourth trailer byte: verify, then hand over or discard (R128). -/
def crcComplete (s : State) : Res State := do
  let ok ← crcMatches s
  if ok then dispatchFrame s else .ok (discardFrame .crcMismatch s)

/-- `ST_CRC` (R128). -/
def stCrc (b : Byte) (s : State) : Res State := do
  let s ← bufAppend b s
  let s : State := { s with crcIdx := s.crcIdx + 1 }
  if s.crcIdx = s.cfg.crcWidth then crcComplete s else .ok s

/-- The state machine on a passed byte: the operation that `state` selects (R82, R132). -/
def passByte (b : Byte) (s : State) : Res State :=
  match s.state with
  | .findStart => stFind b s
  | .readControlWord => stCw b s
  | .readHeader => stHdr b s
  | .readData => stData b s
  | .readChecksum => stCrc b s

/-- `ST_FIND` (R121). -/
def execStFind (b : Byte) (s : State) : Host.Outcome State Fault Refusal := finish (stFind b s)

/-- `ST_CW` (R122). -/
def execStCw (b : Byte) (s : State) : Host.Outcome State Fault Refusal := finish (stCw b s)

/-- `ST_HDR` (R123). -/
def execStHdr (b : Byte) (s : State) : Host.Outcome State Fault Refusal := finish (stHdr b s)

/-- `ST_DATA` (R126). -/
def execStData (b : Byte) (s : State) : Host.Outcome State Fault Refusal := finish (stData b s)

/-- `ST_CRC` (R128). -/
def execStCrc (b : Byte) (s : State) : Host.Outcome State Fault Refusal := finish (stCrc b s)

/-- `DLEN_LATCH` (R124). -/
def execDlenLatch (s : State) : Host.Outcome State Fault Refusal := finish (dlenLatch s)

/-- `HDR_DONE` (R125). -/
def execHdrDone (s : State) : Host.Outcome State Fault Refusal := finish (hdrDone s)

/-- `DATA_DONE` (R127). -/
def execDataDone (s : State) : Host.Outcome State Fault Refusal := finish (dataDone s)

end Sys2Proof.Machine
end

