-- ==== Sys2Proof/Machine/Filter.lean ====
section
/-! DEFINITION. The delimiter/escape filter (40_filter.md). `run` is updated before the state machine acts on a passed
byte, so a frame reset raised in the same step leaves `run = 0` (R100). -/

namespace Sys2Proof.Machine

/-- `LDR_SYNC`: the `N`-th consecutive leader byte (R102, R221). A frame in progress is discarded with RESYNC. -/
def ldrSync (_b : Byte) (s : State) : Res State :=
  let s : State := { s with run := s.run + 1 }
  let s := if s.state = .findStart then frameReset s else discardFrame .resync s
  .ok { s with state := .readControlWord }

/-- `LDR_PASS`: a leader byte that does not complete a run (R101). -/
def ldrPass (b : Byte) (s : State) : Res State := passByte b { s with run := s.run + 1 }

/-- `ESC_DROP`: a stuffing escape (R103). -/
def escDrop (_b : Byte) (s : State) : Res State := .ok { s with run := 0 }

/-- `ESC_PASS`: an escape-valued byte that is not in stuffing position (R104). -/
def escPass (b : Byte) (s : State) : Res State := passByte b { s with run := 0 }

/-- `LIT_PASS`: any other byte (R105). -/
def litPass (b : Byte) (s : State) : Res State := passByte b { s with run := 0 }

/-- The filter on one byte, by the operation the decode selects (R81). -/
def filterByte (op : FilterOp) (b : Byte) (s : State) : Res State :=
  match op with
  | .ldrSync => ldrSync b s
  | .ldrPass => ldrPass b s
  | .escDrop => escDrop b s
  | .escPass => escPass b s
  | .litPass => litPass b s

/-- `step(cfg, s, b)` of R132: the whole block on one input byte. -/
def byteStep (b : Byte) (s : State) : Res State := filterByte (filterOp s.cfg s.run b) b s

/-- `LDR_SYNC` (R102). -/
def execLdrSync (b : Byte) (s : State) : Host.Outcome State Fault Refusal := finish (ldrSync b s)

/-- `LDR_PASS` (R101). -/
def execLdrPass (b : Byte) (s : State) : Host.Outcome State Fault Refusal := finish (ldrPass b s)

/-- `ESC_DROP` (R103). -/
def execEscDrop (b : Byte) (s : State) : Host.Outcome State Fault Refusal := finish (escDrop b s)

/-- `ESC_PASS` (R104). -/
def execEscPass (b : Byte) (s : State) : Host.Outcome State Fault Refusal := finish (escPass b s)

/-- `LIT_PASS` (R105). -/
def execLitPass (b : Byte) (s : State) : Host.Outcome State Fault Refusal := finish (litPass b s)

end Sys2Proof.Machine
end

