-- ==== Sys2Proof/Machine/Dispatcher.lean ====
section
/-! DEFINITION. The packet dispatcher and the host-facing operations (45_dispatch.md), hardware reset
(70_reset_and_hazards.md). -/

namespace Sys2Proof.Machine

/-- `ingest`: the left fold of the step over a byte sequence, events in order (R206, R6, R63). -/
def ingest : List Byte → State → Res State
  | [], s => .ok s
  | b :: bs, s => do
    let s ← byteStep b s
    ingest bs s

/-- `DISPATCH` (R201). -/
def execDispatch (s : State) : Host.Outcome State Fault Refusal := finish (dispatchFrame s)

/-- `DISCARD` (R203). After a RESYNC the sync that raised it goes on to `ReadControlWord` (R102); the discard itself ends
in `FindStart`. -/
def execDiscard (cause : DiscardCause) (s : State) : Host.Outcome State Fault Refusal :=
  finish (.ok (discardFrame cause s))

/-- `FRAME_RESET` (R204). -/
def execFrameReset (s : State) : Host.Outcome State Fault Refusal := finish (.ok (frameReset s))

/-- `INGEST` (R206). -/
def execIngest (bs : List Byte) (s : State) : Host.Outcome State Fault Refusal := finish (ingest bs s)

/-- `HW_RESET` (R250): the frame reset, no event, also in the middle of a frame. -/
def execHwReset (s : State) : Host.Outcome State Fault Refusal := finish (.ok (frameReset s))

end Sys2Proof.Machine
end

