-- ==== Sys2Proof/Machine/Dispatch.lean ====
section
/-! DEFINITION. One arm per operation of spec/opcode_table.json. -/

namespace Sys2Proof.Machine

def exec (i : Instr) (s : State) : Host.Outcome State Fault Refusal :=
  match i with
  -- filter (40_filter.md)
  | .ldrSync b => Sys2Proof.Machine.execLdrSync b s
  | .ldrPass b => Sys2Proof.Machine.execLdrPass b s
  | .escDrop b => Sys2Proof.Machine.execEscDrop b s
  | .escPass b => Sys2Proof.Machine.execEscPass b s
  | .litPass b => Sys2Proof.Machine.execLitPass b s
  -- state machine (41_frame_fsm.md)
  | .stFind b => Sys2Proof.Machine.execStFind b s
  | .stCw b => Sys2Proof.Machine.execStCw b s
  | .stHdr b => Sys2Proof.Machine.execStHdr b s
  | .stData b => Sys2Proof.Machine.execStData b s
  | .stCrc b => Sys2Proof.Machine.execStCrc b s
  -- micro-operations
  | .hamdec => Sys2Proof.Machine.execHamdec s
  | .hdrlen => Sys2Proof.Machine.execHdrlen s
  | .fldoff fmask => Sys2Proof.Machine.execFldoff fmask s
  | .dlenLatch => Sys2Proof.Machine.execDlenLatch s
  | .hdrDone => Sys2Proof.Machine.execHdrDone s
  | .dataDone => Sys2Proof.Machine.execDataDone s
  | .crcchk => Sys2Proof.Machine.execCrcchk s
  | .dispatch => Sys2Proof.Machine.execDispatch s
  | .discard cause => Sys2Proof.Machine.execDiscard cause s
  | .frameReset => Sys2Proof.Machine.execFrameReset s
  -- host interface (45_dispatch.md, 70_reset_and_hazards.md)
  | .ingest bs => Sys2Proof.Machine.execIngest bs s
  | .hwReset => Sys2Proof.Machine.execHwReset s

end Sys2Proof.Machine
end

