-- ==== Sys2Proof/Machine/Fetch.lean ====
section
/-! DEFINITION. Taking the next input (rules R62, R206, R208, R250), and placing one for a table word. -/

namespace Sys2Proof.Machine

/-- The operation that the next input selects, and the state once that input is taken; none where nothing stands at the
inputs (R4: a step per input and no step otherwise). -/
def fetch (s : State) : Option (Instr × State) :=
  match s.input with
  | [] => none
  | inp :: rest => some (decodePort s.cfg s.run inp, { s with input := rest })

/-- A state whose next input makes the state machine perform the operation of a table word: the state register holds the
word's code and its byte is next, with `run = 0` so that the filter passes it whatever its value (R81 with `N >= 2`). A
word whose code stands for no state changes nothing. Log 15. -/
def placeTableWord (s : State) (nbits w : Nat) : State :=
  match tableFields nbits w with
  | some (code, b) =>
    match ParseState.ofCode code with
    | some st => { s with state := st, run := 0, input := .byte b :: s.input }
    | none => s
  | none => s

end Sys2Proof.Machine
end

