-- ==== Sys2Proof/Machine/Step.lean ====
section
/-! DEFINITION. One step of an instance: take the next input, if there is one, and perform the operation it selects. -/

namespace Sys2Proof.Machine

/-- An instance whose `Cfg` breaks R7 is refused (U1, log 13). With nothing at the inputs nothing changes (R4, R131,
R263, log 3). -/
def step (s : State) : Host.Outcome State Fault Refusal :=
  if s.cfg.wf then
    match fetch s with
    | some (i, s') => exec i s'
    | none => .next s
  else .refused .illFormedCfg

/-- `s` with the instruction of a table word next (log 15). -/
def State.withFetchWord (s : State) (nbits w : Nat) : State := placeTableWord s nbits w

end Sys2Proof.Machine
end

