-- ==== Sys2Proof/Machine/Sender.lean ====
section
/-! DEFINITION. The sender's functions of rule R84, derived test tooling that binds no hardware (D21); statements about
received frames use them. -/

namespace Sys2Proof.Machine

/-- A bit as a word. -/
def bit (p : Bool) (i : Nat) : Word16 := BitVec.ofNat 16 (p.toNat * 2 ^ i)

/-- `HamEncode(f)`, the reference encoder (R84, R152). -/
def hamEncode (f : Flags) : Word16 :=
  (f &&& 0x07FF) ||| bit (par (f &&& 0x071D)) 12 ||| bit (par (f &&& 0x04DB)) 13
    ||| bit (par (f &&& 0x01B7)) 14 ||| bit (par (f &&& 0x026F)) 15

/-- The header fields of a frame, in `FIELDS` order; the data-length field holds the number of data bytes (R84). A value that
does not fit its field is cut to the field's low bytes (DESIGN CHOICE, log 21). -/
def headerFields (c : Cfg) (f : Flags) (vals : String → Nat) (nData : Nat) : List Field → List Byte
  | [] => []
  | fd :: fs =>
    (if flagSet f fd.mask then beBytes fd.width (if fd.mask = c.fData then nData else vals fd.name) else [])
      ++ headerFields c f vals nData fs

/-- The de-stuffed frame before its trailer: the control word `cw` for flags `f`, the header fields, the data (R84). -/
def contentBody (c : Cfg) (cw : Word16) (f : Flags) (vals : String → Nat) (data : List Byte) : List Byte :=
  beBytes 2 cw.toNat ++ headerFields c f vals data.length c.fields
    ++ (if flagSet f c.fData then data else [])

/-- `Content`: the whole de-stuffed frame (R84). -/
def content (c : Cfg) (cw : Word16) (f : Flags) (vals : String → Nat) (data : List Byte) : List Byte :=
  contentBody c cw f vals data
    ++ (if flagSet f c.fCrc then beBytes 4 (crc32 c (contentBody c cw f vals data)).toNat else [])

/-- `Stuff` from a count `r`: an escape after every `N-1` consecutive leader bytes (R84). -/
def stuffFrom (c : Cfg) : Nat → List Byte → List Byte
  | _, [] => []
  | r, b :: bs =>
    if b = c.leader then
      if r + 2 = c.n then b :: c.esc :: stuffFrom c 0 bs
      else b :: stuffFrom c (r + 1) bs
    else b :: stuffFrom c 0 bs

/-- `Stuff(s)` (R84). -/
def stuff (c : Cfg) (bs : List Byte) : List Byte := stuffFrom c 0 bs

/-- `FRAME`: the leader, then the stuffed content (R84). -/
def wireFrame (c : Cfg) (cw : Word16) (f : Flags) (vals : String → Nat) (data : List Byte) : List Byte :=
  List.replicate c.n c.leader ++ stuff c (content c cw f vals data)

/-- The filter alone, from a leader count: the bytes it passes on (R100 to R105), or none if a sync occurs. -/
def passedBytes (c : Cfg) : Nat → List Byte → Option (List Byte)
  | _, [] => some []
  | run, b :: bs =>
    match filterOp c run b with
    | .ldrSync => none
    | .ldrPass => (passedBytes c (run + 1) bs).map (b :: ·)
    | .escDrop => passedBytes c 0 bs
    | .escPass => (passedBytes c 0 bs).map (b :: ·)
    | .litPass => (passedBytes c 0 bs).map (b :: ·)

end Sys2Proof.Machine
end

