-- ==== Sys2Proof/Safety.lean ====
section
/-! DEFINITION. What counts as a good state and a good run, in the terms the statements use: the reset values of R36, the
invariants of R33, what the latched registers mean (R27 to R29), the decoder's contract (R151). -/

namespace Sys2Proof.Machine

/-- Every element of R20's record has its reset value (R20, R36). -/
abbrev State.AtReset (s : State) : Prop :=
  s.state = .findStart ∧ s.run = 0 ∧ s.buf = [] ∧ s.bufLen = 0 ∧ s.hdrIdx = 0 ∧ s.dataIdx = 0 ∧ s.crcIdx = 0
    ∧ s.flags = 0 ∧ s.hdrLen = 0 ∧ s.dataLen = 0

/-- The state a sync leaves: the reset values, with the parse state at `ReadControlWord` (R102). -/
abbrev State.AtSync (s : State) : Prop :=
  s.state = .readControlWord ∧ s.run = 0 ∧ s.buf = [] ∧ s.bufLen = 0 ∧ s.hdrIdx = 0 ∧ s.dataIdx = 0 ∧ s.crcIdx = 0
    ∧ s.flags = 0 ∧ s.hdrLen = 0 ∧ s.dataLen = 0

/-- The buffer holds exactly the bytes `bs`: `buf[0..buf_len) = bs`. -/
abbrev State.Holds (s : State) (bs : List Byte) : Prop :=
  bs.length = s.bufLen ∧ ∀ i, i < s.bufLen → s.buf.read i = bs[i]?

/-- The state after `BufAppend(b)` (R51), written out. -/
def State.appended (s : State) (b : Byte) : State :=
  { s with buf := s.buf.write s.bufLen b, bufLen := s.bufLen + 1 }

/-- The state after a frame reset (R204), written out. -/
def State.cleared (s : State) : State :=
  { s with
    state := .findStart, run := 0, buf := [], bufLen := 0, hdrIdx := 0, dataIdx := 0, crcIdx := 0
    flags := 0, hdrLen := 0, dataLen := 0 }

/-- The state after a hand-off of `frame` (R201), written out: the event with the values before the reset, then the
reset. -/
def State.afterDispatch (s : State) (frame : List Byte) : State :=
  { s.cleared with events := s.events ++ [.dispatch frame s.flags s.hdrLen s.dataLen] }

/-- The state after a discard with `cause` (R203, R228), written out. -/
def State.afterDiscard (s : State) (cause : Cause) : State :=
  { s.cleared with events := s.events ++ [.diag cause s.state s.bufLen] }

/-- The filter passes `b` to the state machine: it neither completes a leader run nor is a stuffing escape (R81). -/
abbrev State.Passes (s : State) (b : Byte) : Prop :=
  ¬ (b = s.cfg.leader ∧ s.run + 1 = s.cfg.n) ∧ ¬ (b = s.cfg.esc ∧ s.run + 1 = s.cfg.n)

/-- A frame's bytes are being taken and its flags are valid (R27). -/
abbrev State.Decoded (s : State) : Prop :=
  s.state = .readHeader ∨ s.state = .readData ∨ s.state = .readChecksum

/-- The invariants of R33 (1 to 7; 8 speaks of two states), with what they rest on: the buffer's cells are exactly the
indices below `buf_len` (R20, R51), the flags are `FLAGS_W` bits wide (R7), a register that is not valid holds zero (R27 to
R29, D19). -/
abbrev State.Inv (s : State) : Prop :=
  s.buf.map (·.1) = List.range s.bufLen
  ∧ s.run < s.cfg.n
  ∧ s.flags.toNat < 2 ^ s.cfg.flagsW
  ∧ (s.state = .findStart →
      s.bufLen = 0 ∧ s.hdrIdx = 0 ∧ s.dataIdx = 0 ∧ s.crcIdx = 0 ∧ s.flags = 0 ∧ s.hdrLen = 0 ∧ s.dataLen = 0)
  ∧ (s.state = .readControlWord →
      s.hdrIdx = s.bufLen ∧ s.bufLen ≤ 1 ∧ s.dataIdx = 0 ∧ s.crcIdx = 0 ∧ s.flags = 0 ∧ s.hdrLen = 0
        ∧ s.dataLen = 0)
  ∧ (s.Decoded → s.hdrLen = hdrlen s.cfg s.flags ∧ (s.hasData = false → s.dataLen = 0))
  ∧ (s.state = .readHeader →
      2 ≤ s.hdrIdx ∧ s.hdrIdx = s.bufLen ∧ s.hdrIdx ≤ s.cfg.maxHdr ∧ s.hdrIdx < s.hdrLen ∧ s.dataIdx = 0
        ∧ s.crcIdx = 0)
  ∧ (s.state = .readData →
      s.hdrIdx = s.hdrLen ∧ s.hdrIdx ≤ s.cfg.maxHdr ∧ s.hasData = true ∧ s.dataIdx < s.dataLen.toNat
        ∧ s.bufLen = s.hdrLen + s.dataIdx ∧ s.crcIdx = 0)
  ∧ (s.state = .readChecksum →
      s.hasCrc = true ∧ s.hdrIdx = s.hdrLen ∧ s.hdrIdx ≤ s.cfg.maxHdr ∧ s.dataIdx = s.dataLen.toNat
        ∧ s.crcIdx ≤ 3 ∧ s.bufLen = s.hdrLen + s.dataLen.toNat + s.crcIdx)

/-- What the latched registers mean while they are valid: `flags` is the decoded control word as it stands in the buffer
(R23, R27), and once the data-length field is in the buffer `data_len` is its value (R29, R124). -/
abbrev State.Latched (s : State) : Prop :=
  s.Decoded →
    (∃ cw, s.buf.readRange 0 2 = some cw ∧ s.flags = hamdec s.cfg (be16 cw))
    ∧ (s.hasData = true → fldoff s.cfg s.flags s.cfg.fData + 2 ≤ s.hdrIdx →
        ∃ bs, s.buf.readRange (fldoff s.cfg s.flags s.cfg.fData) 2 = some bs ∧ s.dataLen = be16 bs)

/-- The contract R151: there is an encoder such that decoding corrects every error of at most one bit. -/
abbrev HamCorrects (c : Cfg) : Prop :=
  ∃ enc : Flags → Word16, ∀ f : Flags, f.toNat < 2 ^ c.flagsW →
    hamdec c (enc f) = f ∧ ∀ i, i < 16 → hamdec c (enc f ^^^ BitVec.ofNat 16 (2 ^ i)) = f

end Sys2Proof.Machine
end

