-- ==== Sys2Proof/Certificates/Slice0/Obligations.lean ====
section
/-! DEFINITION. The statements for the provers, family by family. A log entry named in a docstring marks a clause that rests on
a choice of the model; D<n> is a decision of 92_eei_decisions.md that a cited rule of the spec rests on (log 17). `s.input` is
the model's own list of what stands at the inputs (log 3). -/

open Sys2Proof Sys2Proof.Machine

/-! ### Reset and construction (10_state.md, 70_reset_and_hazards.md) -/

/-- R36: construction, the frame reset and the hardware reset leave every element of R20 at its reset value, and leave the
configuration as it is (D16). -/
def Obligations.ResetValuesOfEveryElement : Prop :=
  (∀ c : Cfg, (State.resetWith c).AtReset ∧ (State.resetWith c).cfg = c)
  ∧ State.reset.AtReset
  ∧ (∀ s : State, ∃ t, exec .frameReset s = .next t ∧ t.AtReset ∧ t.cfg = s.cfg)
  ∧ (∀ s : State, ∃ t, exec .hwReset s = .next t ∧ t.AtReset ∧ t.cfg = s.cfg)

/-- R204, R58: FRAME_RESET clears the ten elements together and changes nothing else (D9, D19). -/
def Obligations.FrameResetClearsEveryElement : Prop :=
  ∀ s : State, exec .frameReset s = .next { s with
    state := .findStart, run := 0, buf := [], bufLen := 0, hdrIdx := 0, dataIdx := 0, crcIdx := 0
    flags := 0, hdrLen := 0, dataLen := 0 }

/-- R250: HW_RESET is the frame reset without an event, in every state (D16), and a reset input at the head
of the inputs, which a step takes by the model's choice (log 3), performs it. -/
def Obligations.HardwareResetLosesTheFrameSilently : Prop :=
  (∀ s : State, exec .hwReset s = .next s.cleared)
  ∧ (∀ (s : State) (rest : List Input), s.cfg.wf = true → s.input = .reset :: rest →
      step s = .next { s.cleared with input := rest })

/-- The invariant of R33 and the meaning of the latched registers hold at construction with any legal configuration, and at
`State.reset` (whose profile is the model's choice, log 1). -/
def Obligations.InvariantHoldsAtReset : Prop :=
  (∀ c : Cfg, c.wf = true → (State.resetWith c).Inv ∧ (State.resetWith c).Latched)
  ∧ State.reset.cfg.wf = true ∧ State.reset.Inv ∧ State.reset.Latched

/-! ### Operation decode (30_encoding.md) -/

/-- R81 (D4): the five rows, with what each does with the byte: a passed byte goes to the operation that `state` selects, with
`run` updated; the other two operations do the same whatever the byte. -/
def Obligations.FilterDecodeFollowsTheTable : Prop :=
  (∀ (c : Cfg) (run : Nat) (b : Byte), c.wf = true → run < c.n →
    (b = c.leader → run = c.n - 1 → decode c (.port run (.byte b)) = .ok (.ldrSync b))
    ∧ (b = c.leader → run < c.n - 1 → decode c (.port run (.byte b)) = .ok (.ldrPass b))
    ∧ (b = c.esc → run = c.n - 1 → decode c (.port run (.byte b)) = .ok (.escDrop b))
    ∧ (b = c.esc → run ≠ c.n - 1 → decode c (.port run (.byte b)) = .ok (.escPass b))
    ∧ (b ≠ c.leader → b ≠ c.esc → decode c (.port run (.byte b)) = .ok (.litPass b)))
  ∧ (∀ (b : Byte) (s : State),
    exec (.ldrPass b) s = exec (stateInstr s.state b) { s with run := s.run + 1 }
    ∧ exec (.escPass b) s = exec (stateInstr s.state b) { s with run := 0 }
    ∧ exec (.litPass b) s = exec (stateInstr s.state b) { s with run := 0 })
  ∧ (∀ (b b' : Byte) (s : State),
    exec (.ldrSync b) s = exec (.ldrSync b') s ∧ exec (.escDrop b) s = exec (.escDrop b') s)

/-- R82: a passed byte performs the operation that the code of `state` selects, and that operation is the step's effect; the
codes 5, 6, 7 stand for no state (R21, U10), and rejecting them by name is the model's choice (log 14); exactly the ten
micro-operations have no encoding; the reset input selects HW_RESET. -/
def Obligations.StateDecodeFollowsTheTable : Prop :=
  (∀ (c : Cfg) (b : Byte),
    decode c (.passed ParseState.findStart.code b) = .ok (.stFind b)
    ∧ decode c (.passed ParseState.readControlWord.code b) = .ok (.stCw b)
    ∧ decode c (.passed ParseState.readHeader.code b) = .ok (.stHdr b)
    ∧ decode c (.passed ParseState.readData.code b) = .ok (.stData b)
    ∧ decode c (.passed ParseState.readChecksum.code b) = .ok (.stCrc b)
    ∧ ∀ code : BitVec 3, 5 ≤ code.toNat →
        decode c (.passed code b) = .error (.reservedStateCode code))
  ∧ (∀ (b : Byte) (s : State) (i : Instr), decode s.cfg (.passed s.state.code b) = .ok i →
    exec (.ldrPass b) s = exec i { s with run := s.run + 1 }
    ∧ exec (.escPass b) s = exec i { s with run := 0 }
    ∧ exec (.litPass b) s = exec i { s with run := 0 })
  ∧ (∀ (c : Cfg) (i : Instr), encode c i = none ↔
      i = .hamdec ∨ i = .hdrlen ∨ (∃ m, i = .fldoff m) ∨ i = .dlenLatch ∨ i = .hdrDone ∨ i = .dataDone
      ∨ i = .crcchk ∨ i = .dispatch ∨ (∃ d, i = .discard d) ∨ i = .frameReset)
  ∧ (∀ (c : Cfg) (run : Nat), decode c (.port run .reset) = .ok .hwReset)

/-- Decoding what the encoder gives for a well-formed operation gives that operation back, with every operand. -/
def Obligations.DecodeOfEncodeIsTheInstruction : Prop :=
  ∀ (c : Cfg) (i : Instr) (sel : Selector), c.wf = true → i.wf c = true → encode c i = some sel →
    decode c sel = .ok i

/-- What the decoder reads at the block's input is always a well-formed operation. -/
def Obligations.DecodedInputIsWellFormed : Prop :=
  ∀ (c : Cfg) (run : Nat) (inp : Input), ∃ i, decode c (.port run inp) = .ok i ∧ i.wf c = true

/-- Some selectors written out from R81 and R82 under the reference profile, and the table words of the STATE rows
(log 14). -/
def Obligations.SampleSelectorsDecode : Prop :=
  decode Cfg.pElp (.port 3 (.byte 0x3C)) = .ok (.ldrSync 0x3C)
  ∧ decode Cfg.pElp (.port 2 (.byte 0x3C)) = .ok (.ldrPass 0x3C)
  ∧ decode Cfg.pElp (.port 3 (.byte 0xC3)) = .ok (.escDrop 0xC3)
  ∧ decode Cfg.pElp (.port 1 (.byte 0xC3)) = .ok (.escPass 0xC3)
  ∧ decode Cfg.pElp (.port 3 (.byte 0x41)) = .ok (.litPass 0x41)
  ∧ decode Cfg.pElp (.port 0 (.chunk [1, 2])) = .ok (.ingest [1, 2])
  ∧ decode Cfg.pElp (.port 0 .reset) = .ok .hwReset
  ∧ decodeTableWord 8 0 = some (.stFind 0) ∧ decodeTableWord 8 1 = some (.stCw 0)
  ∧ decodeTableWord 8 2 = some (.stHdr 0) ∧ decodeTableWord 8 3 = some (.stData 0)
  ∧ decodeTableWord 8 4 = some (.stCrc 0) ∧ decodeTableWord 8 5 = none

/-! ### The step -/

/-- A step takes the next input and performs the decoded operation on the state that remains (log 3 for the input list). -/
def Obligations.StepRunsTheDecodedInstruction : Prop :=
  ∀ (s : State) (inp : Input) (rest : List Input) (i : Instr), s.cfg.wf = true → s.input = inp :: rest →
    decode s.cfg (.port s.run inp) = .ok i → i.wf s.cfg = true →
    step s = exec i { s with input := rest }

/-- With nothing at the inputs a step changes nothing (log 3); an instance with an illegal configuration is refused
(log 13). -/
def Obligations.StepWithoutInputOrLegalCfg : Prop :=
  (∀ s : State, s.cfg.wf = true → s.input = [] → step s = .next s)
  ∧ (∀ s : State, s.cfg.wf = false → step s = .refused .illFormedCfg)

/-- R132: the whole block on one input byte, for every state: count a leader byte and sync at `N`; drop a stuffing escape;
otherwise clear the count; then the operation of `state`, in `FindStart` nothing. -/
def Obligations.ByteStepIsTheStepFunction : Prop :=
  ∀ (s : State) (b : Byte) (rest : List Input), s.cfg.wf = true → s.input = .byte b :: rest →
    let s0 : State := { s with input := rest }
    let pass (u : State) : Host.Outcome State Fault Refusal :=
      match s.state with
      | .findStart => .next u
      | .readControlWord => exec (.stCw b) u
      | .readHeader => exec (.stHdr b) u
      | .readData => exec (.stData b) u
      | .readChecksum => exec (.stCrc b) u
    step s =
      if b = s.cfg.leader then
        if s.run + 1 = s.cfg.n then
          if s.state = .findStart then .next { s0.cleared with state := .readControlWord }
          else .next { s0.afterDiscard .resync with state := .readControlWord }
        else pass { s0 with run := s.run + 1 }
      else if b = s.cfg.esc ∧ s.run = s.cfg.n - 1 then .next { s0 with run := 0 }
      else pass { s0 with run := 0 }

/-- R33: every step, on every input, keeps the invariant. -/
def Obligations.EveryStepKeepsTheInvariant : Prop :=
  ∀ s t : State, s.Inv → step s = .next t → t.Inv

/-- Every step keeps the meaning of the latched registers: `flags` is the decoded control word in the buffer, `data_len` the
data-length field in the buffer. -/
def Obligations.EveryStepKeepsLatchedRegisters : Prop :=
  ∀ s t : State, s.Inv → s.Latched → step s = .next t → t.Latched

/-- The block never stops: from every state that meets R33, with a legal configuration, every step on every input answers a
next state. -/
def Obligations.NoStepStopsFromAGoodState : Prop :=
  ∀ s : State, s.cfg.wf = true → s.Inv → ∃ t, step s = .next t ∧ t.cfg = s.cfg

/-- R33.7: the buffer of a good state is never longer than `MAX_HDR + 65535 + 3`, so no append leaves the address space. -/
def Obligations.BufferStaysWithinCapacity : Prop :=
  ∀ s : State, s.cfg.wf = true → s.Inv → s.bufLen ≤ s.cfg.maxHdr + 65535 + 3 ∧ s.bufLen < bufCap s.cfg

/-- No instruction writes the configuration or the inputs, and none takes an event back (R31, R32). -/
def Obligations.NoInstructionWritesCfgOrInput : Prop :=
  ∀ (i : Instr) (s t : State), exec i s = .next t →
    t.cfg = s.cfg ∧ t.input = s.input ∧ ∃ es, t.events = s.events ++ es

/-- Every instruction, from every state whose buffer is in canonical form, leaves it so. -/
def Obligations.EveryInstructionKeepsMemoryCanonical : Prop :=
  ∀ (i : Instr) (s t : State), s.buf.wf → exec i s = .next t → t.buf.wf

/-- One input byte clears the buffer, leaves it alone, or appends that byte at `buf_len`; every other address reads as
before (R51, R58). From every state. -/
def Obligations.AByteClearsKeepsOrAppends : Prop :=
  ∀ (s t : State) (b : Byte) (rest : List Input), s.input = .byte b :: rest → step s = .next t →
    (t.buf = [] ∧ t.bufLen = 0)
    ∨ (t.bufLen = s.bufLen ∧ ∀ a, t.buf.read a = s.buf.read a)
    ∨ (t.bufLen = s.bufLen + 1 ∧ t.buf.read s.bufLen = some b
        ∧ ∀ a, a ≠ s.bufLen → t.buf.read a = s.buf.read a)

/-- One input byte emits at most one event, and no `Diag` of it carries NONE or DESER_FAIL (R220, R227). -/
def Obligations.AtMostOneEventPerByte : Prop :=
  ∀ (s t : State) (b : Byte) (rest : List Input), s.input = .byte b :: rest → step s = .next t →
    t.events = s.events
    ∨ (∃ frame fl hl dl, t.events = s.events ++ [.dispatch frame fl hl dl])
    ∨ (∃ cause st len, t.events = s.events ++ [.diag cause st len]
        ∧ (cause = .resync ∨ cause = .hdrBound ∨ cause = .crcMismatch))

/-- A byte that ends a frame, by hand-off or by a discard other than RESYNC, leaves every element at its reset value, the
leader count too; RESYNC leaves the state of a sync (R204, R228, R230). -/
def Obligations.EveryFrameEndLeavesTheResetState : Prop :=
  ∀ (s t : State) (b : Byte) (rest : List Input) (e : Event), s.input = .byte b :: rest →
    step s = .next t → t.events = s.events ++ [e] →
    (∀ st len, e = .diag .resync st len → t.AtSync ∧ st = s.state ∧ len = s.bufLen ∧ s.state ≠ .findStart)
    ∧ ((∀ st len, e ≠ .diag .resync st len) → t.AtReset)

/-- R130: once decoded, `flags` and `hdr_len` do not change until the frame ends; only the second control-word byte and a
frame reset write them, and that byte writes the header length of the flags it has just decoded. From every state. -/
def Obligations.FlagsAndHeaderLengthAreImmutableInAFrame : Prop :=
  ∀ (s t : State) (b : Byte) (rest : List Input), s.input = .byte b :: rest → step s = .next t →
    (s.Decoded → t.Decoded → t.flags = s.flags ∧ t.hdrLen = s.hdrLen)
    ∧ ((t.flags = s.flags ∧ t.hdrLen = s.hdrLen)
      ∨ t.AtReset ∨ t.AtSync
      ∨ (s.state = .readControlWord ∧ s.hdrIdx = 1 ∧ t.hdrLen = hdrlen s.cfg t.flags
        ∧ ∃ cw, t.buf.readRange 0 2 = some cw ∧ t.flags = hamdec s.cfg (be16 cw)))

/-! ### Filter (40_filter.md) -/

/-- R102, R221 (D11): a sync in `FindStart` emits nothing; in any other state it discards the frame with RESYNC; both leave the
state of a sync. The `N`-th consecutive leader byte at the input does this. -/
def Obligations.SyncStartsAFrameAndCutsOneInProgress : Prop :=
  (∀ (b : Byte) (s : State), s.state = .findStart →
    exec (.ldrSync b) s = .next { s.cleared with state := .readControlWord })
  ∧ (∀ (b : Byte) (s : State), s.state ≠ .findStart →
    exec (.ldrSync b) s = .next { s.cleared with
      state := .readControlWord, events := s.events ++ [.diag .resync s.state s.bufLen] })
  ∧ (∀ (s : State) (rest : List Input), s.cfg.wf = true → s.input = .byte s.cfg.leader :: rest →
    s.run + 1 = s.cfg.n → ∃ t, step s = .next t ∧ t.AtSync ∧ t.input = rest)

/-- R103: a stuffing escape clears the count and changes nothing else, in every state. -/
def Obligations.StuffingEscapeIsDropped : Prop :=
  (∀ (b : Byte) (s : State), exec (.escDrop b) s = .next { s with run := 0 })
  ∧ (∀ (s : State) (rest : List Input), s.cfg.wf = true → s.input = .byte s.cfg.esc :: rest →
    s.run + 1 = s.cfg.n → step s = .next { s with run := 0, input := rest })

/-- R121: in `FindStart` every passed byte is discarded; only the leader count follows it. -/
def Obligations.FindStartDiscardsEveryPassedByte : Prop :=
  ∀ (b : Byte) (s : State),
    exec (.stFind b) s = .next s
    ∧ (s.state = .findStart →
        exec (.ldrPass b) s = .next { s with run := s.run + 1 }
        ∧ exec (.escPass b) s = .next { s with run := 0 }
        ∧ exec (.litPass b) s = .next { s with run := 0 })

/-- Every byte operation of the filter, and the state-machine operation of the current state, completes from every good state
and keeps R33 (the filter operations under the condition on `run` that selects them). -/
def Obligations.ByteOperationsCompleteFromGoodStates : Prop :=
  ∀ (b : Byte) (s : State), s.cfg.wf = true → s.Inv →
    (∃ t, exec (.ldrSync b) s = .next t ∧ t.Inv)
    ∧ (s.run + 1 < s.cfg.n → ∃ t, exec (.ldrPass b) s = .next t ∧ t.Inv)
    ∧ (∃ t, exec (.escDrop b) s = .next t ∧ t.Inv)
    ∧ (∃ t, exec (.escPass b) s = .next t ∧ t.Inv)
    ∧ (∃ t, exec (.litPass b) s = .next t ∧ t.Inv)
    ∧ (s.state = .findStart → ∃ t, exec (.stFind b) s = .next t ∧ t.Inv)
    ∧ (s.state = .readControlWord → ∃ t, exec (.stCw b) s = .next t ∧ t.Inv)
    ∧ (s.state = .readHeader → ∃ t, exec (.stHdr b) s = .next t ∧ t.Inv)
    ∧ (s.state = .readData → ∃ t, exec (.stData b) s = .next t ∧ t.Inv)
    ∧ (s.state = .readChecksum → ∃ t, exec (.stCrc b) s = .next t ∧ t.Inv)

/-- R109: from `FindStart` with no leader byte counted, `N` leader bytes sync; in any state, `N - run` of them do, provided that
the count was not cleared on the way; and what the sync leaves does not depend on the state before. -/
def Obligations.LeaderRunSynchronises : Prop :=
  (∀ s : State, s.cfg.wf = true → s.state = .findStart → s.run = 0 →
    exec (.ingest (List.replicate s.cfg.n s.cfg.leader)) s
      = .next { s.cleared with state := .readControlWord })
  ∧ (∀ s mid : State, s.cfg.wf = true → s.run < s.cfg.n →
    exec (.ingest (List.replicate (s.cfg.n - s.run - 1) s.cfg.leader)) s = .next mid → mid.run + 1 = s.cfg.n →
    ∃ t, exec (.ingest (List.replicate (s.cfg.n - s.run) s.cfg.leader)) s = .next t ∧ t.AtSync)

/-- R108: the filter alone takes exactly the inserted escapes out of a stuffed sequence: no sync occurs, and the bytes passed
on are the original ones. -/
def Obligations.DestuffingInvertsStuffing : Prop :=
  ∀ (c : Cfg) (bs : List Byte), c.wf = true → passedBytes c 0 (stuff c bs) = some bs

/-! ### Frame state machine (41_frame_fsm.md) -/

/-- R122 (D6, D7, D8): the first control-word byte is appended and counted; the second is appended, the flags and the header
length are written, and the frame goes to `ReadHeader` with the completion test; at the bound the frame is discarded instead. -/
def Obligations.ControlWordIsCollectedAndDecoded : Prop :=
  (∀ (b : Byte) (s : State), s.cfg.wf = true → s.hdrIdx < s.cfg.maxHdr → s.hdrIdx ≠ 1 → s.bufLen < bufCap s.cfg →
    exec (.stCw b) s = .next { s.appended b with hdrIdx := s.hdrIdx + 1 })
  ∧ (∀ (b b0 : Byte) (s : State), s.cfg.wf = true → s.hdrIdx < s.cfg.maxHdr → s.hdrIdx = 1 → s.Holds [b0] →
    let fl := hamdec s.cfg (BitVec.ofNat 16 (b0.toNat * 256 + b.toNat))
    let u : State := { s.appended b with
      hdrIdx := 2, flags := fl, hdrLen := hdrlen s.cfg fl, state := .readHeader }
    exec (.stCw b) s = exec .hdrDone u ∧ (hdrlen s.cfg fl ≠ 2 → exec (.stCw b) s = .next u))
  ∧ (∀ (b : Byte) (s : State), s.cfg.maxHdr ≤ s.hdrIdx →
    exec (.stCw b) s = .next (s.afterDiscard .hdrBound))

/-- R123: below the bound the byte is appended and counted, then the latch and the completion test run; where neither applies
that is all. At the bound the byte is discarded with the frame, cause HDR_BOUND. -/
def Obligations.HeaderByteIsAppendedOrTripsTheBound : Prop :=
  (∀ (b : Byte) (s : State), s.cfg.maxHdr ≤ s.hdrIdx →
    exec (.stHdr b) s = .next (s.afterDiscard .hdrBound))
  ∧ (∀ (b : Byte) (s u : State), s.hdrIdx < s.cfg.maxHdr → s.bufLen < bufCap s.cfg →
    exec .dlenLatch { s.appended b with hdrIdx := s.hdrIdx + 1 } = .next u →
    exec (.stHdr b) s = exec .hdrDone u)
  ∧ (∀ (b : Byte) (s : State), s.cfg.wf = true → s.hdrIdx < s.cfg.maxHdr → s.bufLen < bufCap s.cfg →
    s.hdrIdx + 1 ≠ s.hdrLen →
    (s.hasData = true → s.hdrIdx + 1 ≠ fldoff s.cfg s.flags s.cfg.fData + 2) →
    exec (.stHdr b) s = .next { s.appended b with hdrIdx := s.hdrIdx + 1 })

/-- R222: from a good state in `ReadHeader` a passed byte raises HDR_BOUND exactly when `hdr_idx` is `MAX_HDR`, the event
names `ReadHeader` and `MAX_HDR`, and that happens only if the header is longer than `MAX_HDR`. -/
def Obligations.HeaderBoundFiresExactlyAtMaxHdr : Prop :=
  ∀ (s t : State) (b : Byte) (rest : List Input), s.cfg.wf = true → s.Inv → s.state = .readHeader →
    s.input = .byte b :: rest → s.Passes b → step s = .next t →
    ((∃ st len, t.events = s.events ++ [.diag .hdrBound st len]) ↔ s.hdrIdx = s.cfg.maxHdr)
    ∧ (s.hdrIdx = s.cfg.maxHdr →
        t.events = s.events ++ [.diag .hdrBound .readHeader s.cfg.maxHdr] ∧ t.AtReset
        ∧ s.cfg.maxHdr < hdrlen s.cfg s.flags)

/-- R124 (D20): the data length is written exactly when the data flag is set and both bytes of its field have just arrived. -/
def Obligations.DataLengthIsLatchedWhenItsFieldIsComplete : Prop :=
  (∀ (s : State) (b0 b1 : Byte), s.cfg.wf = true → s.hasData = true →
    s.hdrIdx = fldoff s.cfg s.flags s.cfg.fData + 2 →
    s.buf.read (fldoff s.cfg s.flags s.cfg.fData) = some b0 →
    s.buf.read (fldoff s.cfg s.flags s.cfg.fData + 1) = some b1 →
    exec .dlenLatch s = .next { s with dataLen := BitVec.ofNat 16 (b0.toNat * 256 + b1.toNat) })
  ∧ (∀ s : State, s.hasData = false → exec .dlenLatch s = .next s)
  ∧ (∀ s : State, s.cfg.wf = true → s.hdrIdx ≠ fldoff s.cfg s.flags s.cfg.fData + 2 → exec .dlenLatch s = .next s)

/-- R125 (D7): the header completion test, all its branches; a hand-off needs the buffer's bytes, which the last clause names. -/
def Obligations.HeaderCompletionSelectsTheNextStage : Prop :=
  (∀ s : State, s.hdrIdx ≠ s.hdrLen → exec .hdrDone s = .next s)
  ∧ (∀ s : State, s.hdrIdx = s.hdrLen → s.hasData = true →
      exec .hdrDone s = exec .dataDone { s with state := .readData }
      ∧ (s.dataIdx ≠ s.dataLen.toNat → exec .hdrDone s = .next { s with state := .readData }))
  ∧ (∀ s : State, s.hdrIdx = s.hdrLen → s.hasData = false → s.hasCrc = true →
      exec .hdrDone s = .next { s with state := .readChecksum })
  ∧ (∀ (s : State) (frame : List Byte), s.hdrIdx = s.hdrLen → s.hasData = false → s.hasCrc = false →
      s.Holds frame → exec .hdrDone s = .next (s.afterDispatch frame))

/-- R127 (D7): the data completion test, all its branches. -/
def Obligations.DataCompletionSelectsTheNextStage : Prop :=
  (∀ s : State, s.dataIdx ≠ s.dataLen.toNat → exec .dataDone s = .next s)
  ∧ (∀ s : State, s.dataIdx = s.dataLen.toNat → s.hasCrc = true →
      exec .dataDone s = .next { s with state := .readChecksum })
  ∧ (∀ (s : State) (frame : List Byte), s.dataIdx = s.dataLen.toNat → s.hasCrc = false → s.Holds frame →
      exec .dataDone s = .next (s.afterDispatch frame))

/-- R126 (D23): a data byte is appended and counted, then the completion test runs; before the last one that is all. -/
def Obligations.DataByteIsAppendedAndCounted : Prop :=
  (∀ (b : Byte) (s : State), s.bufLen < bufCap s.cfg →
    exec (.stData b) s = exec .dataDone { s.appended b with dataIdx := s.dataIdx + 1 })
  ∧ (∀ (b : Byte) (s : State), s.bufLen < bufCap s.cfg → s.dataIdx + 1 ≠ s.dataLen.toNat →
    exec (.stData b) s = .next { s.appended b with dataIdx := s.dataIdx + 1 })

/-- R128: trailer bytes are appended and counted; at the fourth the frame is handed over if the checksum of everything before
the trailer is the trailer's value, most significant byte first, and discarded with CRC_MISMATCH otherwise. -/
def Obligations.FourthTrailerByteDecidesTheFrame : Prop :=
  (∀ (b : Byte) (s : State), s.cfg.wf = true → s.bufLen < bufCap s.cfg → s.crcIdx ≠ 3 →
    exec (.stCrc b) s = .next { s.appended b with crcIdx := s.crcIdx + 1 })
  ∧ (∀ (b t0 t1 t2 : Byte) (s : State) (region : List Byte), s.cfg.wf = true → s.bufLen < bufCap s.cfg → s.crcIdx = 3 →
    s.Holds (region ++ [t0, t1, t2]) →
    ((crc32 s.cfg region).toNat = ((t0.toNat * 256 + t1.toNat) * 256 + t2.toNat) * 256 + b.toNat →
      exec (.stCrc b) s = .next (s.afterDispatch (region ++ [t0, t1, t2, b])))
    ∧ ((crc32 s.cfg region).toNat ≠ ((t0.toNat * 256 + t1.toNat) * 256 + t2.toNat) * 256 + b.toNat →
      exec (.stCrc b) s = .next ((s.appended b).afterDiscard .crcMismatch)))

/-! ### Control-word decoder (42_hamming.md) -/

/-- HAMDEC reads the control word most significant byte first and hands over the decoded flags (log 5); it writes no register
of the block. -/
def Obligations.HamdecHandsOverTheDecodedFlags : Prop :=
  ∀ (s : State) (b0 b1 : Byte), s.cfg.wf = true → s.buf.read 0 = some b0 → s.buf.read 1 = some b1 →
    exec .hamdec s = .next { s with
      ret := some (.flags (hamdec s.cfg (BitVec.ofNat 16 (b0.toNat * 256 + b1.toNat)))) }

/-- R157: the reference code corrects every single-bit error of every code word; its values on some words. -/
def Obligations.ReferenceCodeCorrectsSingleBitErrors : Prop :=
  (∀ f : Flags, f.toNat < 2048 → hamDecodeElp (hamEncode f) = f
    ∧ ∀ i, i < 16 → hamDecodeElp (hamEncode f ^^^ BitVec.ofNat 16 (2 ^ i)) = f)
  ∧ (hamDecodeElp 0x0000 = 0x000 ∧ syndrome 0x0000 = 0 ∧ hamDecodeElp 0xFFFF = 0x7FF ∧ syndrome 0xFFFF = 0)
  ∧ (hamDecodeElp 0x3C3C = 0x438 ∧ syndrome 0x3C3C = 0xB ∧ correctionMask 0xB = 0x004)
  ∧ (hamEncode 0x000 = 0x0000 ∧ hamEncode 0x001 = 0xF001 ∧ hamEncode 0x002 = 0xE002 ∧ hamEncode 0x003 = 0x1003
    ∧ hamEncode 0x013 = 0x6013 ∧ hamEncode 0x402 = 0xD402 ∧ hamEncode 0x7FF = 0xF7FF)

/-- Every legal configuration with the reference decoder meets the contract R151 (that such a configuration has FLAGS_W = 11 is
log 18); and whatever the decoder, its result is `FLAGS_W` bits wide, as R7 and R150 type it, in the model by the cut of log
8. -/
def Obligations.ReferenceDecoderMeetsTheContract : Prop :=
  (∀ c : Cfg, c.wf = true → c.ham = .elp → HamCorrects c)
  ∧ (∀ (c : Cfg) (raw : Word16), c.wf = true → (hamdec c raw).toNat < 2 ^ c.flagsW)

/-! ### Field length resolver (43_resolver.md) -/

/-- R171 (D6, D13): the header length is 2 plus the widths of the fields present, and its values on the two block flags. -/
def Obligations.HeaderLengthSumsThePresentFields : Prop :=
  (∀ (c : Cfg) (fl : Flags), c.wf = true →
    hdrlen c fl = 2 + ((c.fields.filter (fun fd => fl &&& fd.mask != 0)).map (·.width)).sum)
  ∧ (∀ c : Cfg, c.wf = true → hdrlen c 0 = 2 ∧ hdrlen c c.fCrc = 2 ∧ hdrlen c c.fData = 4)

/-- HDRLEN hands over the header length of the flags, 2 plus the widths of the fields present (log 5); it writes no register of
the block. -/
def Obligations.HdrlenHandsOverTheHeaderLength : Prop :=
  ∀ s : State, s.cfg.wf = true → exec .hdrlen s = .next { s with
    ret := some (.length (2 + ((s.cfg.fields.filter (fun fd => s.flags &&& fd.mask != 0)).map (·.width)).sum)) }

/-- FLDOFF of a present field hands over 2 plus the widths of the present fields before it; of any mask it completes and
changes nothing else (log 5; the value for a field that is not present is free, log 11). -/
def Obligations.FldoffHandsOverTheOffset : Prop :=
  (∀ (s : State) (pre post : List Sys2Proof.Field) (fd : Sys2Proof.Field), s.cfg.wf = true →
    s.cfg.fields = pre ++ fd :: post →
    (∀ g ∈ pre, g.mask ≠ fd.mask) → s.flags &&& fd.mask ≠ 0 →
    exec (.fldoff fd.mask) s = .next { s with
      ret := some (.offset (2 + ((pre.filter (fun g => s.flags &&& g.mask != 0)).map (·.width)).sum)) })
  ∧ (∀ (s : State) (m : Flags), ∃ off, exec (.fldoff m) s = .next { s with ret := some (.offset off) })

/-- R173: present fields lie inside the header, do not overlap, and cover it from index 2 on. -/
def Obligations.PresentFieldsTileTheHeader : Prop :=
  ∀ (c : Cfg) (fl : Flags), c.wf = true →
    (∀ fd ∈ c.fields, flagSet fl fd.mask = true →
      2 ≤ fldoff c fl fd.mask ∧ fldoff c fl fd.mask + fd.width ≤ hdrlen c fl)
    ∧ (∀ pre mid post (fd g : Sys2Proof.Field), c.fields = pre ++ fd :: mid ++ g :: post → flagSet fl fd.mask = true →
      flagSet fl g.mask = true → fldoff c fl fd.mask + fd.width ≤ fldoff c fl g.mask)
    ∧ (∀ x, 2 ≤ x → x < hdrlen c fl →
      ∃ fd ∈ c.fields, flagSet fl fd.mask = true ∧ fldoff c fl fd.mask ≤ x ∧ x < fldoff c fl fd.mask + fd.width)
    ∧ (flagSet fl c.fData = true → fldoff c fl c.fData + 2 ≤ hdrlen c fl)

/-- R175: with the reference field table no header is longer than 22 bytes, and with `MAX_HDR` at least 22 no byte raises
HDR_BOUND from a good state. -/
def Obligations.HeaderBoundIsUnreachableWithTheReferenceFields : Prop :=
  (∀ (c : Cfg) (fl : Flags), c.wf = true → c.fields = fieldsElp → hdrlen c fl ≤ 22)
  ∧ (∀ (s t : State) (b : Byte) (rest : List Input), s.cfg.fields = fieldsElp → 22 ≤ s.cfg.maxHdr → s.Inv →
      s.input = .byte b :: rest → step s = .next t →
      ∀ st len, t.events ≠ s.events ++ [.diag .hdrBound st len])

/-! ### Checksum verifier (44_crc.md) -/

/-- CRCCHK hands over whether the checksum of the buffer before its last four bytes is their value (log 5), and changes
nothing else. -/
def Obligations.CrcchkComparesTheTrailer : Prop :=
  ∀ (s : State) (region : List Byte) (t0 t1 t2 t3 : Byte), s.cfg.wf = true →
    s.Holds (region ++ [t0, t1, t2, t3]) →
    exec .crcchk s = .next { s with ret := some (.verdict (decide
      ((crc32 s.cfg region).toNat
        = ((t0.toNat * 256 + t1.toNat) * 256 + t2.toNat) * 256 + t3.toNat))) }

/-- R189: the check value and the other values of the reference CRC. -/
def Obligations.ReferenceCrcValues : Prop :=
  crc32Iso [0x31, 0x32, 0x33, 0x34, 0x35, 0x36, 0x37, 0x38, 0x39] = 0xCBF43926
  ∧ crc32Iso [] = 0x00000000 ∧ crc32Iso [0x00] = 0xD202EF8D ∧ crc32Iso [0xFF] = 0xFF000000
  ∧ crc32Iso [0xF0, 0x01] = 0x2262C3D4 ∧ crc32Iso [0x10, 0x03, 0x00, 0x00] = 0x731B36DA

/-- The reference CRC tells two sequences apart that differ in one byte (what R190 rests on). -/
def Obligations.ReferenceCrcDetectsAnyOneByteChange : Prop :=
  ∀ (pre post : List Byte) (b b' : Byte), b ≠ b' → crc32Iso (pre ++ b :: post) ≠ crc32Iso (pre ++ b' :: post)

/-- The verification gate: a frame handed over with the checksum flag set ends in four bytes whose value is the checksum of
all its bytes before them. From every state. -/
def Obligations.NoChecksummedFrameIsHandedOverUnverified : Prop :=
  ∀ (s t : State) (b : Byte) (rest : List Input) (frame : List Byte) (fl : Flags) (hl : Nat) (dl : Word16),
    s.input = .byte b :: rest → step s = .next t → t.events = s.events ++ [.dispatch frame fl hl dl] →
    flagSet fl s.cfg.fCrc = true →
    4 ≤ frame.length
    ∧ crc32 s.cfg (frame.take (frame.length - 4)) = be32 (frame.drop (frame.length - 4))

/-! ### Packet dispatcher and host interface (45_dispatch.md, 60_exceptions.md) -/

/-- R64, R201 (D10): DISPATCH hands over a copy of the whole buffer with the latched registers, then clears. -/
def Obligations.DispatchHandsOverTheBufferThenClears : Prop :=
  ∀ (s : State) (frame : List Byte), s.Holds frame → exec .dispatch s = .next (s.afterDispatch frame)

/-- R203, R228 (D11): DISCARD emits the `Diag` event with the state and length before the reset, then clears; no hand-off. -/
def Obligations.DiscardReportsThenClears : Prop :=
  ∀ (d : DiscardCause) (s : State), exec (.discard d) s = .next { s.cleared with
    events := s.events ++ [.diag d.toCause s.state s.bufLen] }

/-- R80, R202: what a handed-over frame is: its flags are its decoded control word, its header length that of the flags and
within the bound, its data length the value of its data-length field, its length the sum of its parts. -/
def Obligations.HandedOverFrameHasTheDecodedShape : Prop :=
  ∀ (s t : State) (b : Byte) (rest : List Input) (frame : List Byte) (fl : Flags) (hl : Nat) (dl : Word16),
    s.cfg.wf = true → s.Inv → s.Latched → s.input = .byte b :: rest → step s = .next t →
    t.events = s.events ++ [.dispatch frame fl hl dl] →
    fl = hamdec s.cfg (be16 (frame.take 2)) ∧ hl = hdrlen s.cfg fl ∧ hl ≤ s.cfg.maxHdr
    ∧ (flagSet fl s.cfg.fData = false → dl = 0)
    ∧ (flagSet fl s.cfg.fData = true → dl = be16 ((frame.drop (fldoff s.cfg fl s.cfg.fData)).take 2))
    ∧ frame.length = hl + (if flagSet fl s.cfg.fData then dl.toNat else 0)
        + (if flagSet fl s.cfg.fCrc then 4 else 0)

/-- R63: a byte sequence gives the same state and events however it is cut into chunks. -/
def Obligations.ChunkingNeverMatters : Prop :=
  ∀ (as bs : List Byte) (s : State),
    (exec (.ingest []) s = .next s)
    ∧ exec (.ingest (as ++ bs)) s =
      match exec (.ingest as) s with
      | .next t => exec (.ingest bs) t
      | .fault f => .fault f
      | .refused r => .refused r

/-- INGEST is the left fold of the step: the bytes one at a time at the input and the chunk in one call give the same outcome
(R206; log 3 and log 16 for how inputs wait in the state). -/
def Obligations.IngestIsTheFoldOfTheStep : Prop :=
  (∀ (bs : List Byte) (s : State) (rest : List Input), s.cfg.wf = true → s.input = bs.map .byte ++ rest →
    (Sys2Proof.core.run bs.length s : Host.Outcome State Fault Refusal) = exec (.ingest bs) { s with input := rest })
  ∧ (∀ (bs : List Byte) (s : State) (rest : List Input), s.cfg.wf = true → s.input = .chunk bs :: rest →
    step s = exec (.ingest bs) { s with input := rest })
  ∧ (∀ (bs : List Byte) (s : State), s.cfg.wf = true → s.Inv → ∃ t, exec (.ingest bs) s = .next t ∧ t.Inv)

/-- A frame sent as R84 says, from `FindStart` with no leader byte counted, yields exactly one hand-off, of the content as
sent, and leaves the block ready for the next: for every legal configuration, every control word, every field value, every
data of at most 65535 bytes, if the header fits the bound. What is sent for a field value wider than its field is the model's
choice, its low bytes (log 21). -/
def Obligations.SentFrameIsHandedOverExactly : Prop :=
  ∀ (s : State) (cw : Word16) (fl : Flags) (vals : String → Nat) (data : List Byte),
    s.cfg.wf = true → s.Inv → s.state = .findStart → s.run = 0 → hamdec s.cfg cw = fl →
    hdrlen s.cfg fl ≤ s.cfg.maxHdr → data.length ≤ 65535 →
    exec (.ingest (wireFrame s.cfg cw fl vals data)) s = .next { s with
      events := s.events ++ [.dispatch (content s.cfg cw fl vals data) fl (hdrlen s.cfg fl)
        (if flagSet fl s.cfg.fData then BitVec.ofNat 16 data.length else 0)] }

/-- R190, exact form: with the reference CRC, a checksummed frame that arrives with one byte of its header or data changed,
its decoded flags and its data length unchanged, is discarded with CRC_MISMATCH, and the block is ready for the next. Field values
wider than their field are sent as their low bytes, the model's choice (log 21). -/
def Obligations.OneCorruptedByteIsDiscarded : Prop :=
  ∀ (s : State) (cw cw' : Word16) (fl : Flags) (vals vals' : String → Nat) (data data' pre post : List Byte)
    (b b' : Byte),
    s.cfg.wf = true → s.cfg.crc = .isoHdlc → s.Inv → s.state = .findStart → s.run = 0 →
    hamdec s.cfg cw' = fl → hdrlen s.cfg fl ≤ s.cfg.maxHdr → flagSet fl s.cfg.fCrc = true →
    data'.length = data.length → data.length ≤ 65535 →
    contentBody s.cfg cw fl vals data = pre ++ b :: post →
    contentBody s.cfg cw' fl vals' data' = pre ++ b' :: post → b ≠ b' →
    exec (.ingest (List.replicate s.cfg.n s.cfg.leader ++ stuff s.cfg
        (pre ++ b' :: post ++ beBytes 4 (crc32 s.cfg (pre ++ b :: post)).toNat))) s
      = .next { s with events := s.events ++ [.diag .crcMismatch .readChecksum (pre.length + 1 + post.length + 4)] }
end

