-- ==== Sys2Proof/Laws/Config.lean ====
section
/-! SUPPORT. What a legal configuration gives (R7), so that no proof unfolds `Cfg.wf`. -/

namespace Sys2Proof

/-- The three widths that the source fixes (R7, D2). -/
theorem Cfg.widths_of_wf {c : Cfg} (h : c.wf = true) : c.cwWidth = 2 ∧ c.dlenWidth = 2 ∧ c.crcWidth = 4 := by
  simp only [Cfg.wf, Cfg.widthsWf, Cfg.flagsWf, Bool.and_eq_true, decide_eq_true_eq] at h; tauto

/-- The bounds on `N`, `MAX_HDR` and `FLAGS_W` (R7, D3). -/
theorem Cfg.bounds_of_wf {c : Cfg} (h : c.wf = true) : 2 ≤ c.n ∧ 2 ≤ c.maxHdr ∧ 1 ≤ c.flagsW ∧ c.flagsW ≤ 16 := by
  simp only [Cfg.wf, Cfg.widthsWf, Cfg.flagsWf, Bool.and_eq_true, decide_eq_true_eq] at h; tauto

/-- The escape byte is not the leader byte (R7, D3). -/
theorem Cfg.esc_ne_leader_of_wf {c : Cfg} (h : c.wf = true) : c.esc ≠ c.leader := by
  simp only [Cfg.wf, Bool.and_eq_true, bne_iff_ne] at h; tauto

/-- The data-length entry: there is one, and every entry with its mask is 2 bytes wide (R7). -/
theorem Cfg.dataField_of_wf {c : Cfg} (h : c.wf = true) :
    (∃ f ∈ c.fields, f.mask = c.fData) ∧ ∀ f ∈ c.fields, f.mask = c.fData → f.width = 2 := by
  simp only [Cfg.wf, Cfg.fieldsWf, Bool.and_eq_true, List.any_eq_true, List.all_eq_true, beq_iff_eq, Bool.or_eq_true,
    bne_iff_ne] at h
  obtain ⟨-, -, -, -, -, ⟨-, hex⟩, hall⟩ := h
  exact ⟨hex, fun f hf hm => (hall f hf).resolve_left (fun k => k hm)⟩

end Sys2Proof
end

