-- ==== Sys2Proof/Laws/Memory.lean ====
section
/-! SUPPORT. The frame buffer's memory: what a read after a write gives, and that a write keeps the canonical form. -/

namespace Sys2Proof.Machine

@[simp] theorem Memory.read_nil (x : Nat) : Memory.read [] x = none := rfl

/-- A read after a write to the same place gives the value written. -/
@[simp] theorem Memory.read_write_same (m : Memory) (x : Nat) (v : Byte) : (m.write x v).read x = some v := by
  induction m with
  | nil => simp [Memory.write, Memory.read]
  | cons c m ih =>
    obtain ⟨a, b⟩ := c
    simp only [Memory.write]
    split
    · simp [Memory.read]
    · split
      · simp [Memory.read]
      · next h => simp [Memory.read, h, ih]

/-- A write leaves every other place alone. -/
theorem Memory.read_write_other (m : Memory) {x y : Nat} (v : Byte) (h : y ≠ x) :
    (m.write x v).read y = m.read y := by
  induction m with
  | nil => simp [Memory.write, Memory.read, h]
  | cons c m ih =>
    obtain ⟨a, b⟩ := c
    simp only [Memory.write]
    split
    · simp [Memory.read, h]
    · split
      · next hx => subst hx; simp [Memory.read, h]
      · simp [Memory.read, ih]

/-- Every cell after a write is a cell from before or the one written. -/
theorem Memory.mem_write (m : Memory) (x : Nat) (v : Byte) (c : Host.Cell) (h : c ∈ m.write x v) :
    c = (x, v) ∨ c ∈ m := by
  induction m with
  | nil => simpa [Memory.write] using h
  | cons d m ih =>
    obtain ⟨a, b⟩ := d
    simp only [Memory.write] at h
    split at h
    · simpa using h
    · split at h
      · rcases List.mem_cons.mp h with h | h
        · exact .inl h
        · exact .inr (List.mem_cons_of_mem _ h)
      · rcases List.mem_cons.mp h with h | h
        · exact .inr (h ▸ List.mem_cons_self)
        · exact (ih h).imp_right (List.mem_cons_of_mem _)

/-- A write keeps the addresses strictly rising. -/
theorem Memory.wf_write {m : Memory} (h : m.wf) (x : Nat) (v : Byte) : (m.write x v).wf := by
  induction m with
  | nil => simp [Memory.wf, Memory.write]
  | cons d m ih =>
    obtain ⟨a, b⟩ := d
    obtain ⟨hd, hm⟩ := List.pairwise_cons.mp h
    simp only [Memory.write]
    split
    · next hx =>
      refine List.pairwise_cons.mpr ⟨fun c hc => ?_, h⟩
      rcases List.mem_cons.mp hc with rfl | hc
      · exact hx
      · exact lt_trans hx (hd c hc)
    · split
      · next hx => subst hx; exact List.pairwise_cons.mpr ⟨hd, hm⟩
      · refine List.pairwise_cons.mpr ⟨fun c hc => ?_, ih hm⟩
        rcases Memory.mem_write m x v c hc with rfl | hc
        · simp; omega
        · exact hd c hc

/-- What `MemRead` gives, in terms of single reads (R52). -/
theorem Memory.readRange_eq_some {m : Memory} {a n : Nat} {bs : List Byte} :
    m.readRange a n = some bs ↔ bs.length = n ∧ ∀ i, i < n → m.read (a + i) = bs[i]? := by
  induction n generalizing a bs with
  | zero => cases bs <;> simp [Memory.readRange]
  | succ n ih =>
    constructor
    · intro h
      simp only [Memory.readRange] at h
      split at h
      · next b cs hb hcs =>
        obtain ⟨hl, hr⟩ := ih.mp hcs
        cases h
        refine ⟨by simp [hl], fun i hi => ?_⟩
        cases i with
        | zero => simpa using hb
        | succ i => simpa [Nat.add_assoc, Nat.add_comm 1] using hr i (by omega)
      · cases h
    · rintro ⟨hl, hr⟩
      cases bs with
      | nil => simp at hl
      | cons b cs =>
        have hb : m.read a = some b := by simpa using hr 0 (by omega)
        have hcs : m.readRange (a + 1) n = some cs :=
          ih.mpr ⟨by simpa using hl, fun i hi => by
            simpa [Nat.add_assoc, Nat.add_comm 1] using hr (i + 1) (by omega)⟩
        simp [Memory.readRange, hb, hcs]

/-- The cells at addresses `a, a+1, …` that hold the bytes `bs`. -/
def Memory.ofBytes : Nat → List Byte → Memory
  | _, [] => []
  | a, b :: bs => (a, b) :: Memory.ofBytes (a + 1) bs

theorem Memory.read_ofBytes (a : Nat) (bs : List Byte) (x : Nat) :
    (Memory.ofBytes a bs).read x = if a ≤ x then bs[x - a]? else none := by
  induction bs generalizing a with
  | nil => simp [Memory.ofBytes]
  | cons b bs ih =>
    simp only [Memory.ofBytes, Memory.read, ih]
    rcases Nat.lt_trichotomy x a with h | h | h
    · have h1 : x ≠ a := by omega
      have h2 : ¬ a ≤ x := by omega
      have h3 : ¬ a + 1 ≤ x := by omega
      simp [h1, h2, h3]
    · simp [h]
    · have h1 : x ≠ a := by omega
      have h2 : a ≤ x := by omega
      have h3 : a + 1 ≤ x := by omega
      obtain ⟨k, rfl⟩ : ∃ k, x = a + 1 + k := ⟨x - (a + 1), by omega⟩
      have h4 : a + 1 + k - (a + 1) = k := by omega
      have h5 : a + 1 + k - a = k + 1 := by omega
      simp [h1, h2, h4, h5]

/-- Appending at the first free address puts a new cell at the end. -/
theorem Memory.write_ofBytes (a : Nat) (bs : List Byte) (v : Byte) :
    (Memory.ofBytes a bs).write (a + bs.length) v = Memory.ofBytes a (bs ++ [v]) := by
  induction bs generalizing a with
  | nil => simp [Memory.ofBytes, Memory.write]
  | cons b bs ih =>
    have h1 : ¬ a + (bs.length + 1) < a := by omega
    have h2 : a + (bs.length + 1) ≠ a := by omega
    have h3 : a + (bs.length + 1) = a + 1 + bs.length := by omega
    simp [Memory.ofBytes, Memory.write, h1]
    rw [h3, ih]

theorem Memory.addresses_ofBytes (a : Nat) (bs : List Byte) :
    (Memory.ofBytes a bs).map (·.1) = List.range' a bs.length := by
  induction bs generalizing a with
  | nil => rfl
  | cons b bs ih => simp [Memory.ofBytes, ih, List.range'_succ]

/-- A memory whose addresses are `a .. a+n-1` is that of its bytes. -/
theorem Memory.eq_ofBytes {m : Memory} {a n : Nat} (h : m.map (·.1) = List.range' a n) :
    m = Memory.ofBytes a (m.map (·.2)) := by
  induction m generalizing a n with
  | nil => rfl
  | cons c m ih =>
    cases n with
    | zero => simp at h
    | succ n =>
      simp only [List.map_cons, List.range'_succ, List.cons.injEq] at h
      obtain ⟨h1, h2⟩ := h
      have := ih h2
      simp only [List.map_cons, Memory.ofBytes, ← h1]
      rw [h1]
      exact congrArg₂ _ (by rw [← h1]) this

/-- The empty memory, which is what construction and the frame reset leave, is in canonical form. -/
theorem Memory.wf_nil : Memory.wf [] := List.Pairwise.nil

/-- The memory after reset is in canonical form. -/
theorem Memory.wf_reset : State.reset.buf.wf := Memory.wf_nil

/-- A memory that holds exactly the addresses below `n` is that of its bytes. -/
theorem Memory.eq_ofBytes_range {m : Memory} {n : Nat} (h : m.map (·.1) = List.range n) :
    m = Memory.ofBytes 0 (m.map (·.2)) := by
  rw [List.range_eq_range'] at h
  exact Memory.eq_ofBytes h

/-- An append to a memory that holds exactly the addresses below `n` (R51). -/
theorem Memory.addresses_write_range {m : Memory} {n : Nat} (b : Byte) (h : m.map (·.1) = List.range n) :
    (m.write n b).map (·.1) = List.range (n + 1) := by
  have hl : (m.map (·.2)).length = n := by simpa using congrArg List.length h
  have hw := Memory.write_ofBytes 0 (m.map (·.2)) b
  rw [hl, Nat.zero_add] at hw
  rw [Memory.eq_ofBytes_range h, hw, Memory.addresses_ofBytes, List.range_eq_range']
  simp [hl]

/-- A read below `n` of a memory that holds exactly the addresses below `n` (R52). -/
theorem Memory.readRange_of_range {m : Memory} {n a k : Nat} (h : m.map (·.1) = List.range n) (hk : a + k ≤ n) :
    m.readRange a k = some (((m.map (·.2)).drop a).take k) := by
  have hl : m.length = n := by simpa using congrArg List.length h
  rw [Memory.readRange_eq_some]
  refine ⟨by simp; omega, fun i hi => ?_⟩
  conv_lhs => rw [Memory.eq_ofBytes_range h, Memory.read_ofBytes]
  simp at hi ⊢
  rw [List.getElem?_take]
  simp; omega

end Sys2Proof.Machine
end

