-- ==== Sys2Proof/Laws/State.lean ====
section
/-! SUPPORT. One lemma per field per named update of the state, so that no later proof unfolds a record update. -/

namespace Sys2Proof.Machine

/-! ### `FRAME_RESET` (R204) -/

@[simp] theorem frameReset_state (s : State) : (frameReset s).state = .findStart := rfl
@[simp] theorem frameReset_run (s : State) : (frameReset s).run = 0 := rfl
@[simp] theorem frameReset_buf (s : State) : (frameReset s).buf = [] := rfl
@[simp] theorem frameReset_bufLen (s : State) : (frameReset s).bufLen = 0 := rfl
@[simp] theorem frameReset_hdrIdx (s : State) : (frameReset s).hdrIdx = 0 := rfl
@[simp] theorem frameReset_dataIdx (s : State) : (frameReset s).dataIdx = 0 := rfl
@[simp] theorem frameReset_crcIdx (s : State) : (frameReset s).crcIdx = 0 := rfl
@[simp] theorem frameReset_flags (s : State) : (frameReset s).flags = 0 := rfl
@[simp] theorem frameReset_hdrLen (s : State) : (frameReset s).hdrLen = 0 := rfl
@[simp] theorem frameReset_dataLen (s : State) : (frameReset s).dataLen = 0 := rfl
@[simp] theorem frameReset_cfg (s : State) : (frameReset s).cfg = s.cfg := rfl
@[simp] theorem frameReset_input (s : State) : (frameReset s).input = s.input := rfl
@[simp] theorem frameReset_events (s : State) : (frameReset s).events = s.events := rfl
@[simp] theorem frameReset_ret (s : State) : (frameReset s).ret = s.ret := rfl

/-! ### `emit` (R9) -/

@[simp] theorem emit_state (e : Event) (s : State) : (emit e s).state = s.state := rfl
@[simp] theorem emit_run (e : Event) (s : State) : (emit e s).run = s.run := rfl
@[simp] theorem emit_buf (e : Event) (s : State) : (emit e s).buf = s.buf := rfl
@[simp] theorem emit_bufLen (e : Event) (s : State) : (emit e s).bufLen = s.bufLen := rfl
@[simp] theorem emit_hdrIdx (e : Event) (s : State) : (emit e s).hdrIdx = s.hdrIdx := rfl
@[simp] theorem emit_dataIdx (e : Event) (s : State) : (emit e s).dataIdx = s.dataIdx := rfl
@[simp] theorem emit_crcIdx (e : Event) (s : State) : (emit e s).crcIdx = s.crcIdx := rfl
@[simp] theorem emit_flags (e : Event) (s : State) : (emit e s).flags = s.flags := rfl
@[simp] theorem emit_hdrLen (e : Event) (s : State) : (emit e s).hdrLen = s.hdrLen := rfl
@[simp] theorem emit_dataLen (e : Event) (s : State) : (emit e s).dataLen = s.dataLen := rfl
@[simp] theorem emit_cfg (e : Event) (s : State) : (emit e s).cfg = s.cfg := rfl
@[simp] theorem emit_input (e : Event) (s : State) : (emit e s).input = s.input := rfl
@[simp] theorem emit_events (e : Event) (s : State) : (emit e s).events = s.events ++ [e] := rfl
@[simp] theorem emit_ret (e : Event) (s : State) : (emit e s).ret = s.ret := rfl

/-! ### `DISCARD` (R203) -/

@[simp] theorem discardFrame_state (c : DiscardCause) (s : State) :
    (discardFrame c s).state = .findStart := rfl
@[simp] theorem discardFrame_run (c : DiscardCause) (s : State) :
    (discardFrame c s).run = 0 := rfl
@[simp] theorem discardFrame_buf (c : DiscardCause) (s : State) :
    (discardFrame c s).buf = [] := rfl
@[simp] theorem discardFrame_bufLen (c : DiscardCause) (s : State) :
    (discardFrame c s).bufLen = 0 := rfl
@[simp] theorem discardFrame_hdrIdx (c : DiscardCause) (s : State) :
    (discardFrame c s).hdrIdx = 0 := rfl
@[simp] theorem discardFrame_dataIdx (c : DiscardCause) (s : State) :
    (discardFrame c s).dataIdx = 0 := rfl
@[simp] theorem discardFrame_crcIdx (c : DiscardCause) (s : State) :
    (discardFrame c s).crcIdx = 0 := rfl
@[simp] theorem discardFrame_flags (c : DiscardCause) (s : State) :
    (discardFrame c s).flags = 0 := rfl
@[simp] theorem discardFrame_hdrLen (c : DiscardCause) (s : State) :
    (discardFrame c s).hdrLen = 0 := rfl
@[simp] theorem discardFrame_dataLen (c : DiscardCause) (s : State) :
    (discardFrame c s).dataLen = 0 := rfl
@[simp] theorem discardFrame_cfg (c : DiscardCause) (s : State) :
    (discardFrame c s).cfg = s.cfg := rfl
@[simp] theorem discardFrame_input (c : DiscardCause) (s : State) :
    (discardFrame c s).input = s.input := rfl
@[simp] theorem discardFrame_events (c : DiscardCause) (s : State) :
    (discardFrame c s).events = s.events ++ [.diag c.toCause s.state s.bufLen] := rfl
@[simp] theorem discardFrame_ret (c : DiscardCause) (s : State) :
    (discardFrame c s).ret = s.ret := rfl

/-! ### `hdr_len <- HDRLEN(flags)` (R122) -/

@[simp] theorem resolveHdrLen_state (s : State) : (resolveHdrLen s).state = s.state := rfl
@[simp] theorem resolveHdrLen_run (s : State) : (resolveHdrLen s).run = s.run := rfl
@[simp] theorem resolveHdrLen_buf (s : State) : (resolveHdrLen s).buf = s.buf := rfl
@[simp] theorem resolveHdrLen_bufLen (s : State) : (resolveHdrLen s).bufLen = s.bufLen := rfl
@[simp] theorem resolveHdrLen_hdrIdx (s : State) : (resolveHdrLen s).hdrIdx = s.hdrIdx := rfl
@[simp] theorem resolveHdrLen_dataIdx (s : State) : (resolveHdrLen s).dataIdx = s.dataIdx := rfl
@[simp] theorem resolveHdrLen_crcIdx (s : State) : (resolveHdrLen s).crcIdx = s.crcIdx := rfl
@[simp] theorem resolveHdrLen_flags (s : State) : (resolveHdrLen s).flags = s.flags := rfl
@[simp] theorem resolveHdrLen_hdrLen (s : State) : (resolveHdrLen s).hdrLen = hdrlen s.cfg s.flags := rfl
@[simp] theorem resolveHdrLen_dataLen (s : State) : (resolveHdrLen s).dataLen = s.dataLen := rfl
@[simp] theorem resolveHdrLen_cfg (s : State) : (resolveHdrLen s).cfg = s.cfg := rfl
@[simp] theorem resolveHdrLen_input (s : State) : (resolveHdrLen s).input = s.input := rfl
@[simp] theorem resolveHdrLen_events (s : State) : (resolveHdrLen s).events = s.events := rfl
@[simp] theorem resolveHdrLen_ret (s : State) : (resolveHdrLen s).ret = s.ret := rfl

/-! ### Construction (R36, R250) -/

@[simp] theorem resetWith_state (c : Cfg) : (State.resetWith c).state = .findStart := rfl
@[simp] theorem resetWith_run (c : Cfg) : (State.resetWith c).run = 0 := rfl
@[simp] theorem resetWith_buf (c : Cfg) : (State.resetWith c).buf = [] := rfl
@[simp] theorem resetWith_bufLen (c : Cfg) : (State.resetWith c).bufLen = 0 := rfl
@[simp] theorem resetWith_hdrIdx (c : Cfg) : (State.resetWith c).hdrIdx = 0 := rfl
@[simp] theorem resetWith_dataIdx (c : Cfg) : (State.resetWith c).dataIdx = 0 := rfl
@[simp] theorem resetWith_crcIdx (c : Cfg) : (State.resetWith c).crcIdx = 0 := rfl
@[simp] theorem resetWith_flags (c : Cfg) : (State.resetWith c).flags = 0 := rfl
@[simp] theorem resetWith_hdrLen (c : Cfg) : (State.resetWith c).hdrLen = 0 := rfl
@[simp] theorem resetWith_dataLen (c : Cfg) : (State.resetWith c).dataLen = 0 := rfl
@[simp] theorem resetWith_cfg (c : Cfg) : (State.resetWith c).cfg = c := rfl
@[simp] theorem resetWith_input (c : Cfg) : (State.resetWith c).input = [] := rfl
@[simp] theorem resetWith_events (c : Cfg) : (State.resetWith c).events = [] := rfl
@[simp] theorem resetWith_ret (c : Cfg) : (State.resetWith c).ret = none := rfl

end Sys2Proof.Machine
end

