-- ==== Sys2Proof/Laws/Ops.lean ====
section
/-! SUPPORT. What each shared operation can do, said once: later proofs cite these instead of unfolding it. -/

namespace Sys2Proof.Machine

@[simp] theorem res_ok_bind {α β : Type} (a : α) (f : α → Res β) : ((.ok a : Res α) >>= f) = f a := rfl

@[simp] theorem res_error_bind {α β : Type} (e : Fault) (f : α → Res β) :
    ((.error e : Res α) >>= f) = .error e := rfl

/-- A sequence that succeeds: both parts did. -/
theorem res_bind_eq_ok {α β : Type} {x : Res α} {f : α → Res β} {b : β} :
    x >>= f = .ok b ↔ ∃ a, x = .ok a ∧ f a = .ok b := by
  cases x <;> simp

@[simp] theorem finish_ok (s : State) : finish (.ok s) = .next s := rfl

@[simp] theorem finish_error (f : Fault) : finish (.error f) = .fault f := rfl

@[simp] theorem finish_eq_next {r : Res State} {t : State} : finish r = .next t ↔ r = .ok t := by
  cases r <;> simp [finish]

/-- No operation of the block refuses. -/
theorem finish_ne_refused (r : Res State) (e : Refusal) : finish r ≠ .refused e := by
  cases r <;> simp [finish]

theorem ok_eq_ok {α : Type} {a b : α} : (.ok a : Res α) = .ok b ↔ b = a := by
  constructor
  · intro h; cases h; rfl
  · rintro rfl; rfl

/-- `MemRead` succeeds exactly where every byte was written (R52). -/
theorem memRead_eq_ok {s : State} {a n : Nat} {bs : List Byte} :
    memRead s a n = .ok bs ↔ s.buf.readRange a n = some bs := by
  unfold memRead; cases s.buf.readRange a n <;> simp

/-- `MemRead` in terms of single bytes. -/
theorem memRead_of_reads {s : State} {a : Nat} {bs : List Byte}
    (h : ∀ i, i < bs.length → s.buf.read (a + i) = bs[i]?) : memRead s a bs.length = .ok bs :=
  memRead_eq_ok.mpr (Memory.readRange_eq_some.mpr ⟨rfl, h⟩)

/-- `BufAppend` (R51). -/
theorem bufAppend_eq_ok {b : Byte} {s t : State} :
    bufAppend b s = .ok t ↔ s.bufLen < bufCap s.cfg ∧
      t = { s with buf := s.buf.write s.bufLen b, bufLen := s.bufLen + 1 } := by
  unfold bufAppend
  by_cases h : s.bufLen < bufCap s.cfg
  · rw [if_pos h, ok_eq_ok]; exact ⟨fun ht => ⟨h, ht⟩, And.right⟩
  · rw [if_neg h]; exact ⟨fun ht => by simp at ht, fun ht => absurd ht.1 h⟩

/-- `DISPATCH` (R201). -/
theorem dispatchFrame_eq_ok {s t : State} :
    dispatchFrame s = .ok t ↔ ∃ frame, s.buf.readRange 0 s.bufLen = some frame ∧
      t = frameReset (emit (.dispatch frame s.flags s.hdrLen s.dataLen) s) := by
  simp only [dispatchFrame, res_bind_eq_ok, memRead_eq_ok, ok_eq_ok]

/-- `CRCCHK` (R188). -/
theorem crcMatches_eq_ok {s : State} {ok : Bool} :
    crcMatches s = .ok ok ↔ s.cfg.crcWidth ≤ s.bufLen ∧ ∃ region trailer,
      s.buf.readRange 0 (s.bufLen - s.cfg.crcWidth) = some region ∧
      s.buf.readRange (s.bufLen - s.cfg.crcWidth) s.cfg.crcWidth = some trailer ∧
      ok = (crc32 s.cfg region == be32 trailer) := by
  unfold crcMatches
  by_cases h : s.bufLen < s.cfg.crcWidth
  · rw [if_pos h]; exact ⟨fun ht => by simp at ht, fun ht => by omega⟩
  · rw [if_neg h]
    simp only [res_bind_eq_ok, memRead_eq_ok, ok_eq_ok]
    exact ⟨fun ⟨r, hr, t, ht, he⟩ => ⟨by omega, r, t, hr, ht, he⟩, fun ⟨_, r, t, hr, ht, he⟩ => ⟨r, hr, t, ht, he⟩⟩

/-- `HAMDEC` of the control word in the buffer (R150). -/
theorem hamdecBuf_eq_ok {s : State} {fl : Flags} :
    hamdecBuf s = .ok fl ↔ ∃ cw, s.buf.readRange 0 s.cfg.cwWidth = some cw ∧ fl = hamdec s.cfg (be16 cw) := by
  simp only [hamdecBuf, res_bind_eq_ok, memRead_eq_ok, ok_eq_ok]

/-- `HAMDEC` with its caller's write of `flags` (R122). -/
theorem hamdecFlags_eq_ok {s t : State} :
    hamdecFlags s = .ok t ↔ ∃ cw, s.buf.readRange 0 s.cfg.cwWidth = some cw ∧
      t = { s with flags := hamdec s.cfg (be16 cw) } := by
  simp only [hamdecFlags, res_bind_eq_ok, hamdecBuf_eq_ok, ok_eq_ok]
  constructor
  · rintro ⟨_, ⟨cw, h, rfl⟩, rfl⟩; exact ⟨cw, h, rfl⟩
  · rintro ⟨cw, h, rfl⟩; exact ⟨_, ⟨cw, h, rfl⟩, rfl⟩

/-- `DLEN_LATCH` (R124). -/
theorem dlenLatch_eq_ok {s t : State} :
    dlenLatch s = .ok t ↔
      (s.hasData = true ∧ s.hdrIdx = fldoff s.cfg s.flags s.cfg.fData + s.cfg.dlenWidth ∧ ∃ bytes,
        s.buf.readRange (fldoff s.cfg s.flags s.cfg.fData) s.cfg.dlenWidth = some bytes ∧ t = { s with dataLen := be16 bytes }) ∨
      (¬ (s.hasData = true ∧ s.hdrIdx = fldoff s.cfg s.flags s.cfg.fData + s.cfg.dlenWidth) ∧ t = s) := by
  unfold dlenLatch
  by_cases h : s.hasData = true
  · by_cases h2 : s.hdrIdx = fldoff s.cfg s.flags s.cfg.fData + s.cfg.dlenWidth
    · rw [if_pos h, if_pos h2]
      simp only [res_bind_eq_ok, memRead_eq_ok, ok_eq_ok]
      exact ⟨fun hx => .inl ⟨h, h2, hx⟩, fun hx => hx.elim (fun k => k.2.2) (fun k => absurd ⟨h, h2⟩ k.1)⟩
    · rw [if_pos h, if_neg h2, ok_eq_ok]
      exact ⟨fun hx => .inr ⟨fun k => h2 k.2, hx⟩, fun hx => hx.elim (fun k => absurd k.2.1 h2) And.right⟩
  · rw [if_neg h, ok_eq_ok]
    exact ⟨fun hx => .inr ⟨fun k => h k.1, hx⟩, fun hx => hx.elim (fun k => absurd k.1 h) And.right⟩

/-- `DATA_DONE` (R127). -/
theorem dataDone_eq_ok {s t : State} :
    dataDone s = .ok t ↔
      (s.dataIdx ≠ s.dataLen.toNat ∧ t = s) ∨
      (s.dataIdx = s.dataLen.toNat ∧ s.hasCrc = true ∧ t = { s with state := .readChecksum }) ∨
      (s.dataIdx = s.dataLen.toNat ∧ s.hasCrc = false ∧ dispatchFrame s = .ok t) := by
  unfold dataDone
  by_cases h : s.dataIdx = s.dataLen.toNat
  · rw [if_pos h]
    cases h2 : s.hasCrc
    · simp [h]
    · simp only [if_true, ok_eq_ok]; simp [h]
  · rw [if_neg h, ok_eq_ok]; simp [h]

/-- `HDR_DONE` (R125). -/
theorem hdrDone_eq_ok {s t : State} :
    hdrDone s = .ok t ↔
      (s.hdrIdx ≠ s.hdrLen ∧ t = s) ∨
      (s.hdrIdx = s.hdrLen ∧ s.hasData = true ∧ dataDone { s with state := .readData } = .ok t) ∨
      (s.hdrIdx = s.hdrLen ∧ s.hasData = false ∧ s.hasCrc = true ∧ t = { s with state := .readChecksum }) ∨
      (s.hdrIdx = s.hdrLen ∧ s.hasData = false ∧ s.hasCrc = false ∧ dispatchFrame s = .ok t) := by
  unfold hdrDone
  by_cases h : s.hdrIdx = s.hdrLen
  · rw [if_pos h]
    cases h2 : s.hasData
    · cases h3 : s.hasCrc
      · simp [h]
      · simp [h, eq_comm (a := t)]
    · simp [h]
  · rw [if_neg h, ok_eq_ok]; simp [h]

end Sys2Proof.Machine
end

