-- ==== Sys2Proof/Laws/Fsm.lean ====
section
/-! SUPPORT. What one operation, and one byte, can do: the inversion lemmas of the state machine and the filter. -/

namespace Sys2Proof.Machine

/-- `ST_CW` (R122): the guard, the first byte, the second byte. -/
theorem stCw_eq_ok {b : Byte} {s t : State} :
    stCw b s = .ok t ↔
      (s.cfg.maxHdr ≤ s.hdrIdx ∧ t = discardFrame .hdrBound s) ∨
      (s.hdrIdx < s.cfg.maxHdr ∧ s.bufLen < bufCap s.cfg ∧
        ((s.hdrIdx + 1 ≠ s.cfg.cwWidth ∧ t = { s with
            buf := s.buf.write s.bufLen b, bufLen := s.bufLen + 1, hdrIdx := s.hdrIdx + 1 }) ∨
         (s.hdrIdx + 1 = s.cfg.cwWidth ∧ cwComplete { s with
            buf := s.buf.write s.bufLen b, bufLen := s.bufLen + 1, hdrIdx := s.hdrIdx + 1 } = .ok t))) := by
  unfold stCw
  split
  · next h => rw [ok_eq_ok]; exact ⟨fun k => .inl ⟨h, k⟩, fun k => k.elim And.right (fun k => by omega)⟩
  · next h =>
    simp only [res_bind_eq_ok, bufAppend_eq_ok]
    constructor
    · rintro ⟨u, ⟨hc, rfl⟩, hu⟩
      refine .inr ⟨by omega, hc, ?_⟩
      split at hu
      · next h2 => exact .inr ⟨h2, hu⟩
      · next h2 => exact .inl ⟨h2, ok_eq_ok.mp hu⟩
    · rintro (⟨h', -⟩ | ⟨-, hc, hu⟩)
      · omega
      · refine ⟨_, ⟨hc, rfl⟩, ?_⟩
        rcases hu with ⟨h2, rfl⟩ | ⟨h2, hu⟩
        · simp only [h2, if_false]
        · simpa only [h2, if_true] using hu

/-- The second control-word byte (R122). -/
theorem cwComplete_eq_ok {s t : State} :
    cwComplete s = .ok t ↔ ∃ cw, s.buf.readRange 0 s.cfg.cwWidth = some cw ∧
      hdrDone { s with
        flags := hamdec s.cfg (be16 cw), hdrLen := hdrlen s.cfg (hamdec s.cfg (be16 cw)),
        state := .readHeader } = .ok t := by
  simp only [cwComplete, res_bind_eq_ok, hamdecFlags_eq_ok]
  constructor
  · rintro ⟨u, ⟨cw, h, rfl⟩, hu⟩; exact ⟨cw, h, hu⟩
  · rintro ⟨cw, h, hu⟩; exact ⟨_, ⟨cw, h, rfl⟩, hu⟩

/-- `ST_HDR` (R123). -/
theorem stHdr_eq_ok {b : Byte} {s t : State} :
    stHdr b s = .ok t ↔
      (s.cfg.maxHdr ≤ s.hdrIdx ∧ t = discardFrame .hdrBound s) ∨
      (s.hdrIdx < s.cfg.maxHdr ∧ s.bufLen < bufCap s.cfg ∧ ∃ u,
        dlenLatch { s with
          buf := s.buf.write s.bufLen b, bufLen := s.bufLen + 1, hdrIdx := s.hdrIdx + 1 } = .ok u ∧
        hdrDone u = .ok t) := by
  unfold stHdr
  split
  · next h => rw [ok_eq_ok]; exact ⟨fun k => .inl ⟨h, k⟩, fun k => k.elim And.right (fun k => by omega)⟩
  · next h =>
    simp only [res_bind_eq_ok, bufAppend_eq_ok]
    constructor
    · rintro ⟨u, ⟨hc, rfl⟩, v, hv, ht⟩; exact .inr ⟨by omega, hc, v, hv, ht⟩
    · rintro (⟨h', -⟩ | ⟨-, hc, v, hv, ht⟩)
      · omega
      · exact ⟨_, ⟨hc, rfl⟩, v, hv, ht⟩

/-- `ST_DATA` (R126). -/
theorem stData_eq_ok {b : Byte} {s t : State} :
    stData b s = .ok t ↔ s.bufLen < bufCap s.cfg ∧
      dataDone { s with
        buf := s.buf.write s.bufLen b, bufLen := s.bufLen + 1, dataIdx := s.dataIdx + 1 } = .ok t := by
  simp only [stData, res_bind_eq_ok, bufAppend_eq_ok]
  constructor
  · rintro ⟨u, ⟨hc, rfl⟩, hu⟩; exact ⟨hc, hu⟩
  · rintro ⟨hc, hu⟩; exact ⟨_, ⟨hc, rfl⟩, hu⟩

/-- The fourth trailer byte (R128). -/
theorem crcComplete_eq_ok {s t : State} :
    crcComplete s = .ok t ↔
      (crcMatches s = .ok true ∧ dispatchFrame s = .ok t) ∨
      (crcMatches s = .ok false ∧ t = discardFrame .crcMismatch s) := by
  simp only [crcComplete, res_bind_eq_ok]
  constructor
  · rintro ⟨ok, h, hu⟩
    cases ok
    · exact .inr ⟨h, ok_eq_ok.mp hu⟩
    · exact .inl ⟨h, by simpa using hu⟩
  · rintro (⟨h, hu⟩ | ⟨h, rfl⟩)
    · exact ⟨true, h, by simpa using hu⟩
    · exact ⟨false, h, by simp⟩

/-- `ST_CRC` (R128). -/
theorem stCrc_eq_ok {b : Byte} {s t : State} :
    stCrc b s = .ok t ↔ s.bufLen < bufCap s.cfg ∧
      ((s.crcIdx + 1 ≠ s.cfg.crcWidth ∧ t = { s with
          buf := s.buf.write s.bufLen b, bufLen := s.bufLen + 1, crcIdx := s.crcIdx + 1 }) ∨
       (s.crcIdx + 1 = s.cfg.crcWidth ∧ crcComplete { s with
          buf := s.buf.write s.bufLen b, bufLen := s.bufLen + 1, crcIdx := s.crcIdx + 1 } = .ok t)) := by
  simp only [stCrc, res_bind_eq_ok, bufAppend_eq_ok]
  constructor
  · rintro ⟨u, ⟨hc, rfl⟩, hu⟩
    refine ⟨hc, ?_⟩
    split at hu
    · next h => exact .inr ⟨h, hu⟩
    · next h => exact .inl ⟨h, ok_eq_ok.mp hu⟩
  · rintro ⟨hc, ⟨h, rfl⟩ | ⟨h, hu⟩⟩
    · exact ⟨_, ⟨hc, rfl⟩, by simp only [h, if_false]⟩
    · exact ⟨_, ⟨hc, rfl⟩, by simpa only [h, if_true] using hu⟩

/-- `LDR_SYNC` (R102). -/
theorem ldrSync_eq_ok {b : Byte} {s t : State} :
    ldrSync b s = .ok t ↔
      (s.state = .findStart ∧ t = { frameReset s with state := .readControlWord }) ∨
      (s.state ≠ .findStart ∧ t = { discardFrame .resync s with state := .readControlWord }) := by
  unfold ldrSync
  by_cases h : s.state = .findStart
  · simp only [h, if_true, ok_eq_ok, ne_eq, not_true, false_and, or_false, true_and]; exact Iff.rfl
  · simp only [h, if_false, ok_eq_ok, ne_eq, not_false_eq_true, false_and, false_or, true_and]; exact Iff.rfl

/-- The filter decode in the terms of R81. -/
theorem filterOp_eq_ldrSync {c : Cfg} {run : Nat} {b : Byte} :
    filterOp c run b = .ldrSync ↔ b = c.leader ∧ run + 1 = c.n := by
  unfold filterOp; split <;> simp_all; split <;> simp_all; split <;> simp_all; split <;> simp_all

/-- One input byte (R132): a sync, a drop, or a passed byte with `run` updated. -/
theorem byteStep_cases {b : Byte} {s t : State} (h : byteStep b s = .ok t) :
    (b = s.cfg.leader ∧ s.run + 1 = s.cfg.n ∧ ldrSync b s = .ok t) ∨
    (b ≠ s.cfg.leader ∧ b = s.cfg.esc ∧ s.run + 1 = s.cfg.n ∧ t = { s with run := 0 }) ∨
    (b = s.cfg.leader ∧ s.run + 1 ≠ s.cfg.n ∧ passByte b { s with run := s.run + 1 } = .ok t) ∨
    (b ≠ s.cfg.leader ∧ passByte b { s with run := 0 } = .ok t) := by
  unfold byteStep filterOp at h
  split at h
  · next h1 => exact .inl ⟨h1.1, h1.2, h⟩
  · split at h
    · next h1 h2 => exact .inr (.inr (.inl ⟨h2, fun h3 => h1 ⟨h2, h3⟩, h⟩))
    · split at h
      · next h1 h2 h3 => exact .inr (.inl ⟨h2, h3.1, h3.2, ok_eq_ok.mp h⟩)
      · split at h
        · next h1 h2 h3 h4 => exact .inr (.inr (.inr ⟨h2, h⟩))
        · next h1 h2 h3 h4 => exact .inr (.inr (.inr ⟨h2, h⟩))

/-- A step of the machine on a byte is the step of R132. -/
theorem step_byte {s : State} {b : Byte} {rest : List Input} (hw : s.cfg.wf = true)
    (hi : s.input = .byte b :: rest) : step s = finish (byteStep b { s with input := rest }) := by
  unfold step fetch
  simp only [hw, hi, if_true, decodePort, byteStep]
  cases filterOp s.cfg s.run b <;> rfl

end Sys2Proof.Machine
end

