-- ==== Sys2Proof/Tests/Slice0.lean ====
section
/-! SUPPORT. Small tests of one step each, with values from the vectors of 95_test_vectors.md (their names stand in the
comments), the smoke tests of the well-formedness checks, decoding, and the witnesses for the statements' hypotheses. -/

namespace Sys2Proof.Tests

open Sys2Proof.Machine

/-! ### States -/

/-- The outcome is a next state with the property. -/
def nextHas (o : Host.Outcome State Fault Refusal) (p : State → Bool) : Bool :=
  match o with
  | .next t => p t
  | _ => false

/-- A state of the reference profile with the buffer `bs`. -/
def mid (st : ParseState) (bs : List Byte) (fl : Flags) (hl : Nat) (dl : Word16) (hi di ci : Nat) : State :=
  { State.reset with
    state := st, buf := Memory.ofBytes 0 bs, bufLen := bs.length
    flags := fl, hdrLen := hl, dataLen := dl, hdrIdx := hi, dataIdx := di, crcIdx := ci }

/-- Three leader bytes counted outside a frame (F1, byte 2). -/
def idle3 : State := { State.reset with run := 3 }
/-- After the sync (S1, byte 3). -/
def sync : State := { State.reset with state := .readControlWord }
/-- After the first control-word byte of F5 (byte 4). -/
def cw1 : State := mid .readControlWord [0xE0] 0 0 0 1 0 0
/-- After the first control-word byte of S1 (byte 4). -/
def cw1Zero : State := mid .readControlWord [0x00] 0 0 0 1 0 0
/-- After the first data-length byte of L1b (byte 6). -/
def hdr3 : State := mid .readHeader [0x10, 0x03, 0x00] 0x003 4 0 3 0 0
/-- After the header of L1b (byte 7). -/
def dat0 : State := mid .readData [0x10, 0x03, 0x00, 0x02] 0x003 4 2 4 0 0
/-- Before the last data byte of a frame without checksum: flags `0x002`, two data bytes. -/
def dat1 : State := mid .readData [0xE0, 0x02, 0x00, 0x02, 0xAA] 0x002 4 2 4 1 0
/-- Before the last trailer byte of S2 (byte 8). -/
def crc3 : State := mid .readChecksum [0xF0, 0x01, 0x22, 0x62, 0xC3] 0x001 2 0 2 0 3
/-- A whole frame in the buffer (S2). -/
def whole : State := mid .readChecksum [0xF0, 0x01, 0x22, 0x62, 0xC3, 0xD4] 0x001 2 0 2 0 4
/-- Profile `P_SMALL`, flags `0x438` (header length 11, as in F4): eight header bytes taken. -/
def atBound : State :=
  { mid .readHeader [0x3C, 0x3C, 0, 0, 0, 0, 0, 0] 0x438 11 0 8 0 0 with cfg := Cfg.pSmall }
/-- The same one byte earlier. -/
def belowBound : State :=
  { mid .readHeader [0x3C, 0x3C, 0, 0, 0, 0, 0] 0x438 11 0 7 0 0 with cfg := Cfg.pSmall }
/-- A state with the given inputs waiting. -/
def given (s : State) (inp : List Input) : State := { s with input := inp }

/-! ### Well-formedness: one ill-formed term for each check (R7) -/

theorem test_profiles_wf : Cfg.pElp.wf = true ∧ Cfg.pDoc3.wf = true ∧ Cfg.pSmall.wf = true := by decide
theorem test_wf_esc_is_leader : { Cfg.pElp with esc := 0x3C }.wf = false := by decide
theorem test_wf_n_one : { Cfg.pElp with n := 1 }.wf = false := by decide
theorem test_wf_maxHdr_one : { Cfg.pElp with maxHdr := 1 }.wf = false := by decide
theorem test_wf_widths :
    { Cfg.pElp with cwWidth := 3 }.wf = false ∧ { Cfg.pElp with dlenWidth := 1 }.wf = false
    ∧ { Cfg.pElp with crcWidth := 2 }.wf = false := by decide
theorem test_wf_flagsW_zero : { Cfg.pElp with flagsW := 0, ham := .other 0 }.wf = false := by decide
theorem test_wf_flagsW_17 : { Cfg.pElp with flagsW := 17, ham := .other 0 }.wf = false := by decide
theorem test_wf_fData_two_bits :
    { Cfg.pElp with fData := 0x006, fields := [⟨0x006, 2, "DATALEN"⟩] }.wf = false := by decide
theorem test_wf_fCrc_zero : { Cfg.pElp with fCrc := 0 }.wf = false := by decide
theorem test_wf_fCrc_outside : { Cfg.pElp with fCrc := 0x800 }.wf = false := by decide
theorem test_wf_fCrc_is_fData : { Cfg.pElp with fCrc := 0x002 }.wf = false := by decide
theorem test_wf_elp_width : { Cfg.pElp with flagsW := 12 }.wf = false := by decide
theorem test_wf_other_width : { Cfg.pElp with flagsW := 12, ham := .other 0 }.wf = true := by decide
theorem test_wf_field_mask_two_bits :
    { Cfg.pElp with fields := ⟨0x600, 1, "X"⟩ :: [⟨0x002, 2, "DATALEN"⟩] }.wf = false := by decide
theorem test_wf_field_is_fCrc :
    { Cfg.pElp with fields := ⟨0x001, 1, "X"⟩ :: [⟨0x002, 2, "DATALEN"⟩] }.wf = false := by decide
theorem test_wf_field_width_zero :
    { Cfg.pElp with fields := ⟨0x400, 0, "X"⟩ :: [⟨0x002, 2, "DATALEN"⟩] }.wf = false := by decide
theorem test_wf_field_twice :
    { Cfg.pElp with fields := [⟨0x002, 2, "DATALEN"⟩, ⟨0x002, 2, "DATALEN"⟩] }.wf = false := by decide
theorem test_wf_no_data_field : { Cfg.pElp with fields := [⟨0x400, 1, "X"⟩] }.wf = false := by decide
theorem test_wf_data_field_width : { Cfg.pElp with fields := [⟨0x002, 3, "DATALEN"⟩] }.wf = false := by decide
theorem test_wf_operands :
    (Instr.ldrSync 0xC3).wf Cfg.pElp = false ∧ (Instr.ldrPass 0x41).wf Cfg.pElp = false
    ∧ (Instr.escDrop 0x3C).wf Cfg.pElp = false ∧ (Instr.escPass 0x41).wf Cfg.pElp = false
    ∧ (Instr.litPass 0x3C).wf Cfg.pElp = false ∧ (Instr.litPass 0xC3).wf Cfg.pElp = false
    ∧ (Instr.fldoff 0x001).wf Cfg.pElp = false := by decide

/-! ### Decoding: selectors written out from R81, R82, and the table words of the STATE rows -/

theorem test_decode_ldrSync : decodePort Cfg.pElp 3 (.byte 0x3C) = .ldrSync 0x3C := by decide
theorem test_decode_ldrPass : decodePort Cfg.pElp 2 (.byte 0x3C) = .ldrPass 0x3C := by decide
theorem test_decode_escDrop : decodePort Cfg.pElp 3 (.byte 0xC3) = .escDrop 0xC3 := by decide
theorem test_decode_escPass : decodePort Cfg.pElp 2 (.byte 0xC3) = .escPass 0xC3 := by decide
theorem test_decode_litPass : decodePort Cfg.pElp 3 (.byte 0x41) = .litPass 0x41 := by decide
theorem test_decode_smallest_n :
    decodePort { Cfg.pElp with n := 2 } 1 (.byte 0x3C) = .ldrSync 0x3C
    ∧ decodePort { Cfg.pElp with n := 2 } 1 (.byte 0xC3) = .escDrop 0xC3 := by decide
theorem test_decode_stFind : decodeTableWord 3 0b000 = some (.stFind 0) := by decide
theorem test_decode_stCw : decodeTableWord 3 0b001 = some (.stCw 0) := by decide
theorem test_decode_stHdr : decodeTableWord 3 0b010 = some (.stHdr 0) := by decide
theorem test_decode_stData : decodeTableWord 8 0b011 = some (.stData 0) := by decide
theorem test_decode_stCrc : decodeTableWord 8 0b100 = some (.stCrc 0) := by decide
theorem test_decode_operand : decodeTableWord 16 0x5501 = some (.stCw 0x55) := by decide
theorem test_decode_reserved :
    decodeTableWord 8 0b101 = none ∧ decodeTableWord 8 0b110 = none ∧ decodeTableWord 8 0b111 = none := by decide
theorem test_decode_ports :
    decodePort Cfg.pElp 0 (.chunk [1]) = .ingest [1] ∧ decodePort Cfg.pElp 0 .reset = .hwReset := by decide

/-! ### The codes of R21 and R220 -/

theorem test_cause_codes :
    Cause.none.code = 0 ∧ Cause.resync.code = 1 ∧ Cause.hdrBound.code = 2 ∧ Cause.crcMismatch.code = 3
    ∧ Cause.deserFail.code = 4 := by decide
theorem test_state_codes (st : ParseState) : ParseState.ofCode st.code = some st := by cases st <;> decide

/-! ### Filter operations -/

/-- F1, byte 3: no event. -/
theorem test_ldrSync_starts :
    nextHas (exec (.ldrSync 0x3C) idle3)
      (fun t => t.state == .readControlWord && t.run == 0 && t.events == []) = true := by decide
/-- F4, byte 7. -/
theorem test_ldrSync_cuts :
    nextHas (exec (.ldrSync 0x3C) { mid .readHeader [0x3C, 0x3C, 0x3C] 0x438 11 0 3 0 0 with run := 3 })
      (fun t => t.state == .readControlWord && t.bufLen == 0 && t.events == [.diag .resync .readHeader 3]) = true := by
  decide
/-- F4, byte 5: a leader-valued control-word byte is content and is counted. -/
theorem test_ldrPass_is_content :
    nextHas (exec (.ldrPass 0x3C) { mid .readControlWord [0x3C] 0 0 0 1 0 0 with run := 1 })
      (fun t => t.run == 2 && t.flags == 0x438 && t.hdrLen == 11 && t.state == .readHeader) = true := by decide
/-- F5, byte 11. -/
theorem test_escDrop :
    nextHas (exec (.escDrop 0xC3) { dat0 with run := 3 })
      (fun t => t.run == 0 && t.dataIdx == 0 && t.buf == dat0.buf) = true := by decide
/-- F5, byte 13, in shape: an escape not in stuffing position is content. -/
theorem test_escPass_is_content :
    nextHas (exec (.escPass 0xC3) { dat0 with run := 1 })
      (fun t => t.run == 0 && t.dataIdx == 1 && t.buf.read 4 == some 0xC3) = true := by decide
/-- F2, byte 3. -/
theorem test_litPass_clears_run :
    nextHas (exec (.litPass 0x41) idle3) (fun t => t.run == 0 && t.state == .findStart && t.buf == []) = true := by
  decide

/-! ### State-machine operations -/

theorem test_stFind_discards : nextHas (exec (.stFind 0x41) idle3) (fun t => t == idle3) = true := by decide
/-- F5, byte 5: `E0 02` decodes to `0x002`, header length 4. -/
theorem test_stCw_decodes :
    nextHas (exec (.stCw 0x02) cw1)
      (fun t => t.state == .readHeader && t.flags == 0x002 && t.hdrLen == 4 && t.hdrIdx == 2) = true := by decide
/-- S1, byte 5: the empty frame. -/
theorem test_stCw_empty_frame :
    nextHas (exec (.stCw 0x00) cw1Zero)
      (fun t => t.state == .findStart && t.events == [.dispatch [0x00, 0x00] 0x000 2 0]) = true := by decide
/-- L1b, byte 7: the data length is latched as the header ends. -/
theorem test_stHdr_latches :
    nextHas (exec (.stHdr 0x02) hdr3)
      (fun t => t.state == .readData && t.dataLen == 2 && t.hdrIdx == 4 && t.bufLen == 4) = true := by decide
/-- R222: the ninth header byte under `MAX_HDR = 8`. -/
theorem test_stHdr_bound :
    nextHas (exec (.stHdr 0x00) atBound)
      (fun t => t.state == .findStart && t.events == [.diag .hdrBound .readHeader 8]) = true := by decide
/-- L1b, byte 9: the last data byte of a checksummed frame. -/
theorem test_stData_to_checksum :
    nextHas (exec (.stData 0x55) { dat0 with dataIdx := 1 })
      (fun t => t.state == .readChecksum && t.dataIdx == 2 && t.events == []) = true := by decide
/-- The last data byte of a frame without checksum. -/
theorem test_stData_dispatches :
    nextHas (exec (.stData 0x55) dat1)
      (fun t => t.events == [.dispatch [0xE0, 0x02, 0x00, 0x02, 0xAA, 0x55] 0x002 4 2]) = true := by decide
/-- S2, byte 9. -/
theorem test_stCrc_dispatches :
    nextHas (exec (.stCrc 0xD4) crc3)
      (fun t => t.state == .findStart && t.events == [.dispatch [0xF0, 0x01, 0x22, 0x62, 0xC3, 0xD4] 0x001 2 0]) = true := by
  decide +kernel
/-- S2 with its last byte changed. -/
theorem test_stCrc_discards :
    nextHas (exec (.stCrc 0xD5) crc3)
      (fun t => t.state == .findStart && t.events == [.diag .crcMismatch .readChecksum 6]) = true := by decide +kernel

/-! ### Micro-operations -/

/-- R157: `3C 3C` decodes to `0x438`; R150: the decoder writes no register. -/
theorem test_hamdec : nextHas (exec .hamdec (mid .readControlWord [0x3C, 0x3C] 0 0 0 2 0 0))
    (fun t => t.ret == some (.flags 0x438) && t.flags == 0) = true := by decide
/-- R154, R157: a single-bit error in `0x1003` is corrected. -/
theorem test_hamdec_corrects : nextHas (exec .hamdec (mid .readControlWord [0x10, 0x02] 0 0 0 2 0 0))
    (fun t => t.ret == some (.flags 0x003)) = true := by decide
/-- R175: `HDRLEN(0x438) = 11`; R170: the resolver writes nothing. -/
theorem test_hdrlen : nextHas (exec .hdrlen { State.reset with flags := 0x438 })
    (fun t => t.ret == some (.length 11) && t.hdrLen == 0) = true := by decide
/-- `DATALEN` after `NETSTATE` (1), `SERVICE` (2) and `ACKBLOCK` (4). -/
theorem test_fldoff : nextHas (exec (.fldoff 0x002) { State.reset with flags := 0x612 })
    (fun t => t.ret == some (.offset 9)) = true := by decide
theorem test_dlenLatch : nextHas (exec .dlenLatch (mid .readHeader [0xE0, 0x02, 0x01, 0x02] 0x002 4 0 4 0 0))
    (fun t => t.dataLen == 0x0102) = true := by decide
theorem test_dlenLatch_early : nextHas (exec .dlenLatch hdr3) (fun t => t == hdr3) = true := by decide
theorem test_hdrDone_to_checksum : nextHas (exec .hdrDone (mid .readHeader [0xF0, 0x01] 0x001 2 0 2 0 0))
    (fun t => t.state == .readChecksum) = true := by decide
/-- S3 in shape: data flag with length 0, no checksum. -/
theorem test_hdrDone_no_data : nextHas (exec .hdrDone (mid .readHeader [0xE0, 0x02, 0, 0] 0x002 4 0 4 0 0))
    (fun t => t.events == [.dispatch [0xE0, 0x02, 0, 0] 0x002 4 0]) = true := by decide
theorem test_dataDone_not_yet : nextHas (exec .dataDone dat0) (fun t => t == dat0) = true := by decide
theorem test_crcchk : nextHas (exec .crcchk whole) (fun t => t.ret == some (.verdict true)) = true := by decide +kernel
theorem test_dispatch : nextHas (exec .dispatch whole)
    (fun t => t.events == [.dispatch [0xF0, 0x01, 0x22, 0x62, 0xC3, 0xD4] 0x001 2 0] && t.buf == []) = true := by decide
theorem test_discard : nextHas (exec (.discard .hdrBound) atBound)
    (fun t => t.events == [.diag .hdrBound .readHeader 8] && t.bufLen == 0) = true := by decide
theorem test_frameReset : nextHas (exec .frameReset crc3) (fun t => t == State.reset) = true := by decide

/-! ### Host operations and the step -/

/-- S1: the empty frame in one chunk. -/
theorem test_ingest : nextHas (exec (.ingest [0x3C, 0x3C, 0x3C, 0x3C, 0x00, 0x00]) State.reset)
    (fun t => t.events == [.dispatch [0x00, 0x00] 0x000 2 0]) = true := by decide
theorem test_hwReset : nextHas (exec .hwReset crc3) (fun t => t == State.reset) = true := by decide
theorem test_step_takes_the_byte : nextHas (step (given idle3 [.byte 0x3C, .reset]))
    (fun t => t.state == .readControlWord && t.input == [.reset]) = true := by decide
theorem test_withFetchWord : nextHas (step (State.reset.withFetchWord 8 1))
    (fun t => t.state == .readControlWord && t.buf == [(0, 0)] && t.hdrIdx == 1) = true := by decide

/-! ### Witnesses: the hypotheses of the statements are met, clause by clause -/

theorem inv_idle3 : idle3.Inv ∧ idle3.cfg.wf = true := by
  exact ⟨⟨by decide, by decide, by decide, by decide, by decide, by decide, by decide, by decide, by decide⟩, by decide⟩
theorem inv_sync : sync.Inv ∧ sync.cfg.wf = true := by
  exact ⟨⟨by decide, by decide, by decide, by decide, by decide, by decide, by decide, by decide, by decide⟩, by decide⟩
theorem inv_cw1 : cw1.Inv ∧ cw1.cfg.wf = true := by
  exact ⟨⟨by decide, by decide, by decide, by decide, by decide, by decide, by decide, by decide, by decide⟩, by decide⟩
theorem inv_hdr3 : hdr3.Inv ∧ hdr3.cfg.wf = true := by
  exact ⟨⟨by decide, by decide, by decide, by decide, by decide, by decide, by decide, by decide, by decide⟩, by decide⟩
theorem inv_dat1 : dat1.Inv ∧ dat1.cfg.wf = true := by
  exact ⟨⟨by decide, by decide, by decide, by decide, by decide, by decide, by decide, by decide, by decide⟩, by decide⟩
theorem inv_crc3 : crc3.Inv ∧ crc3.cfg.wf = true := by
  exact ⟨⟨by decide, by decide, by decide, by decide, by decide, by decide, by decide, by decide, by decide⟩, by decide⟩
theorem inv_atBound : atBound.Inv ∧ atBound.cfg.wf = true := by
  exact ⟨⟨by decide, by decide, by decide, by decide, by decide, by decide, by decide, by decide, by decide⟩, by decide⟩
theorem inv_belowBound : belowBound.Inv ∧ belowBound.cfg.wf = true := by
  exact ⟨⟨by decide, by decide, by decide, by decide, by decide, by decide, by decide, by decide, by decide⟩, by decide⟩
theorem latched_dat1 : dat1.Latched := fun _ =>
  ⟨⟨[0xE0, 0x02], by decide, by decide⟩, fun _ _ => ⟨[0x00, 0x02], by decide, by decide⟩⟩
theorem latched_crc3 : crc3.Latched := fun _ =>
  ⟨⟨[0xF0, 0x01], by decide, by decide⟩, fun h => absurd h (by decide)⟩

theorem witness_HardwareResetLosesTheFrameSilently :
    (given crc3 [.reset]).cfg.wf = true ∧ (given crc3 [.reset]).input = .reset :: [] := by decide
theorem witness_InvariantHoldsAtReset : Cfg.pDoc3.wf = true ∧ Cfg.pSmall.wf = true := by decide
/-- Every clause, at `run = N-1`, `N-2` and 0. -/
theorem witness_FilterDecodeFollowsTheTable :
    Cfg.pElp.wf = true ∧ 3 < Cfg.pElp.n ∧ 2 < Cfg.pElp.n ∧ 0 < Cfg.pElp.n
    ∧ (0x3C : Byte) = Cfg.pElp.leader ∧ (0xC3 : Byte) = Cfg.pElp.esc
    ∧ 3 = Cfg.pElp.n - 1 ∧ 2 < Cfg.pElp.n - 1 ∧ 0 < Cfg.pElp.n - 1 ∧ 2 ≠ Cfg.pElp.n - 1
    ∧ (0x41 : Byte) ≠ Cfg.pElp.leader ∧ (0x41 : Byte) ≠ Cfg.pElp.esc := by decide
theorem witness_StateDecodeFollowsTheTable :
    5 ≤ (5 : BitVec 3).toNat ∧ 5 ≤ (7 : BitVec 3).toNat
    ∧ decode hdr3.cfg (.passed hdr3.state.code 0x02) = .ok (.stHdr 0x02) := ⟨by decide, by decide, rfl⟩
theorem witness_DecodeOfEncodeIsTheInstruction :
    Cfg.pElp.wf = true ∧ (Instr.ldrSync 0x3C).wf Cfg.pElp = true
    ∧ encode Cfg.pElp (.ldrSync 0x3C) = some (.port 3 (.byte 0x3C)) := by decide
theorem witness_StepRunsTheDecodedInstruction :
    (given idle3 [.byte 0x3C]).cfg.wf = true ∧ (given idle3 [.byte 0x3C]).input = .byte 0x3C :: []
    ∧ decodePort (given idle3 [.byte 0x3C]).cfg (given idle3 [.byte 0x3C]).run (.byte 0x3C) = .ldrSync 0x3C
    ∧ (Instr.ldrSync 0x3C).wf (given idle3 [.byte 0x3C]).cfg = true := by decide
theorem witness_StepWithoutInputOrLegalCfg :
    State.reset.cfg.wf = true ∧ State.reset.input = [] ∧ (State.resetWith { Cfg.pElp with n := 1 }).cfg.wf = false := by
  decide
/-- The three bytes that tell R132's branches apart. -/
theorem witness_ByteStepIsTheStepFunction :
    (given idle3 [.byte 0x3C]).cfg.wf = true ∧ (given idle3 [.byte 0x3C]).input = .byte 0x3C :: []
    ∧ (given dat1 [.byte 0xC3]).cfg.wf = true ∧ (given dat1 [.byte 0xC3]).input = .byte 0xC3 :: []
    ∧ (given crc3 [.byte 0x41]).cfg.wf = true ∧ (given crc3 [.byte 0x41]).input = .byte 0x41 :: [] := by decide
theorem witness_EveryStepKeepsTheInvariant :
    (given hdr3 [.byte 0x02]).Inv ∧ ∃ t, step (given hdr3 [.byte 0x02]) = .next t ∧ t.state = .readData :=
  ⟨inv_hdr3.1, _, rfl, by decide⟩
theorem witness_EveryStepKeepsLatchedRegisters :
    (given dat1 [.byte 0x55]).Inv ∧ (given dat1 [.byte 0x55]).Latched
    ∧ ∃ t, step (given dat1 [.byte 0x55]) = .next t :=
  ⟨inv_dat1.1, latched_dat1, _, rfl⟩
theorem witness_NoStepStopsFromAGoodState : (given crc3 [.byte 0xD4]).cfg.wf = true ∧ (given crc3 [.byte 0xD4]).Inv :=
  ⟨inv_crc3.2, inv_crc3.1⟩
theorem witness_BufferStaysWithinCapacity : crc3.cfg.wf = true ∧ crc3.Inv := ⟨inv_crc3.2, inv_crc3.1⟩
theorem witness_NoInstructionWritesCfgOrInput : ∃ t, exec (.stCw 0x02) cw1 = .next t := ⟨_, rfl⟩
theorem witness_EveryInstructionKeepsMemoryCanonical :
    hdr3.buf.wf ∧ ∃ t, exec (.stHdr 0x02) hdr3 = .next t := ⟨by decide, _, rfl⟩
/-- A clearing, a keeping and an appending byte. -/
theorem witness_AByteClearsKeepsOrAppends :
    (∃ t, step (given idle3 [.byte 0x3C]) = .next t)
    ∧ (∃ t, step (given { dat1 with run := 3 } [.byte 0xC3]) = .next t ∧ t.bufLen = 5)
    ∧ (∃ t, step (given hdr3 [.byte 0x02]) = .next t ∧ t.bufLen = 4) :=
  ⟨⟨_, rfl⟩, ⟨_, rfl, by decide⟩, ⟨_, rfl, by decide⟩⟩
/-- A hand-off, a discard, and no event. -/
theorem witness_AtMostOneEventPerByte :
    (∃ t, step (given dat1 [.byte 0x55]) = .next t ∧ t.events.length = 1)
    ∧ (∃ t, step (given atBound [.byte 0x00]) = .next t ∧ t.events.length = 1)
    ∧ (∃ t, step (given hdr3 [.byte 0x02]) = .next t ∧ t.events.length = 0) :=
  ⟨⟨_, rfl, by decide⟩, ⟨_, rfl, by decide⟩, ⟨_, rfl, by decide⟩⟩
/-- A RESYNC, a HDR_BOUND, a hand-off. -/
theorem witness_EveryFrameEndLeavesTheResetState :
    (∃ t, step (given { hdr3 with run := 3 } [.byte 0x3C]) = .next t ∧ t.events = [.diag .resync .readHeader 3])
    ∧ (∃ t, step (given atBound [.byte 0x00]) = .next t ∧ t.events = [.diag .hdrBound .readHeader 8])
    ∧ (∃ t, step (given dat1 [.byte 0x55]) = .next t
        ∧ t.events = [.dispatch [0xE0, 0x02, 0x00, 0x02, 0xAA, 0x55] 0x002 4 2]) :=
  ⟨⟨_, rfl, by decide⟩, ⟨_, rfl, by decide⟩, ⟨_, rfl, by decide⟩⟩
theorem witness_FlagsAndHeaderLengthAreImmutableInAFrame :
    hdr3.Decoded ∧ ∃ t, step (given hdr3 [.byte 0x02]) = .next t ∧ t.Decoded := ⟨by decide, _, rfl, by decide⟩
theorem witness_SyncStartsAFrameAndCutsOneInProgress :
    idle3.state = .findStart ∧ hdr3.state ≠ .findStart ∧ (given idle3 [.byte 0x3C]).cfg.wf = true
    ∧ (given idle3 [.byte 0x3C]).input = .byte (given idle3 [.byte 0x3C]).cfg.leader :: []
    ∧ (given idle3 [.byte 0x3C]).run + 1 = (given idle3 [.byte 0x3C]).cfg.n := by decide
theorem witness_StuffingEscapeIsDropped :
    (given idle3 [.byte 0xC3]).cfg.wf = true
    ∧ (given idle3 [.byte 0xC3]).input = .byte (given idle3 [.byte 0xC3]).cfg.esc :: []
    ∧ (given idle3 [.byte 0xC3]).run + 1 = (given idle3 [.byte 0xC3]).cfg.n := by decide
theorem witness_FindStartDiscardsEveryPassedByte : idle3.state = .findStart := by decide
/-- A good state for each clause. -/
theorem witness_ByteOperationsCompleteFromGoodStates :
    (hdr3.cfg.wf = true ∧ hdr3.Inv ∧ hdr3.run + 1 < hdr3.cfg.n ∧ hdr3.state = .readHeader)
    ∧ (idle3.cfg.wf = true ∧ idle3.Inv ∧ idle3.state = .findStart)
    ∧ (sync.cfg.wf = true ∧ sync.Inv ∧ sync.state = .readControlWord)
    ∧ (cw1.cfg.wf = true ∧ cw1.Inv ∧ cw1.state = .readControlWord)
    ∧ (dat1.cfg.wf = true ∧ dat1.Inv ∧ dat1.state = .readData)
    ∧ (crc3.cfg.wf = true ∧ crc3.Inv ∧ crc3.state = .readChecksum) :=
  ⟨⟨inv_hdr3.2, inv_hdr3.1, by decide, rfl⟩, ⟨inv_idle3.2, inv_idle3.1, rfl⟩, ⟨inv_sync.2, inv_sync.1, rfl⟩,
    ⟨inv_cw1.2, inv_cw1.1, rfl⟩, ⟨inv_dat1.2, inv_dat1.1, rfl⟩, ⟨inv_crc3.2, inv_crc3.1, rfl⟩⟩
/-- From reset; and in the middle of a header with one leader byte counted, two more to come before the last. -/
theorem witness_LeaderRunSynchronises :
    (State.reset.cfg.wf = true ∧ State.reset.state = .findStart ∧ State.reset.run = 0)
    ∧ ({ belowBound with run := 3 }.cfg.wf = true ∧ { belowBound with run := 3 }.run < { belowBound with run := 3 }.cfg.n
      ∧ ∃ m, exec (.ingest (List.replicate ({ belowBound with run := 3 }.cfg.n - { belowBound with run := 3 }.run - 1)
          { belowBound with run := 3 }.cfg.leader)) { belowBound with run := 3 } = .next m
        ∧ m.run + 1 = { belowBound with run := 3 }.cfg.n)
    ∧ ∃ m, exec (.ingest (List.replicate 2 0x3C)) { sync with run := 1 } = .next m ∧ m.run + 1 = sync.cfg.n :=
  ⟨by decide, ⟨by decide, by decide, _, rfl, by decide⟩, _, rfl, by decide⟩
theorem witness_DestuffingInvertsStuffing :
    Cfg.pElp.wf = true ∧ stuff Cfg.pElp [0x3C, 0x3C, 0x3C, 0xC3] = [0x3C, 0x3C, 0x3C, 0xC3, 0xC3] := by decide
/-- The first byte, the second byte (with and without a field), the bound. -/
theorem witness_ControlWordIsCollectedAndDecoded :
    (sync.cfg.wf = true ∧ sync.hdrIdx < sync.cfg.maxHdr ∧ sync.hdrIdx ≠ 1 ∧ sync.bufLen < bufCap sync.cfg)
    ∧ (cw1.cfg.wf = true ∧ cw1.hdrIdx < cw1.cfg.maxHdr ∧ cw1.hdrIdx = 1 ∧ cw1.bufLen = 1 ∧ cw1.buf.read 0 = some 0xE0
      ∧ hdrlen cw1.cfg (hamdec cw1.cfg (BitVec.ofNat 16 ((0xE0 : Byte).toNat * 256 + (0x02 : Byte).toNat))) ≠ 2)
    ∧ atBound.cfg.maxHdr ≤ atBound.hdrIdx := by decide
theorem holds_cw1 : cw1.Holds [0xE0] := by decide
/-- At the bound, below it with a completing and with an ordinary header byte. -/
theorem witness_HeaderByteIsAppendedOrTripsTheBound :
    atBound.cfg.maxHdr ≤ atBound.hdrIdx
    ∧ (hdr3.hdrIdx < hdr3.cfg.maxHdr ∧ hdr3.bufLen < bufCap hdr3.cfg
      ∧ ∃ u, exec .dlenLatch { hdr3.appended 0x02 with hdrIdx := hdr3.hdrIdx + 1 } = .next u)
    ∧ (belowBound.cfg.wf = true ∧ belowBound.hdrIdx < belowBound.cfg.maxHdr ∧ belowBound.bufLen < bufCap belowBound.cfg
      ∧ belowBound.hdrIdx + 1 ≠ belowBound.hdrLen ∧ belowBound.hasData = false) :=
  ⟨by decide, ⟨by decide, by decide, _, rfl⟩, by decide⟩
/-- At `MAX_HDR` and one below it. -/
theorem witness_HeaderBoundFiresExactlyAtMaxHdr :
    (atBound.cfg.wf = true ∧ (given atBound [.byte 0x00]).Inv ∧ atBound.state = .readHeader
      ∧ atBound.Passes 0x00 ∧ (∃ t, step (given atBound [.byte 0x00]) = .next t) ∧ atBound.hdrIdx = atBound.cfg.maxHdr)
    ∧ (belowBound.cfg.wf = true ∧ (given belowBound [.byte 0x00]).Inv ∧ belowBound.state = .readHeader
      ∧ belowBound.Passes 0x00 ∧ (∃ t, step (given belowBound [.byte 0x00]) = .next t)
      ∧ belowBound.hdrIdx + 1 = belowBound.cfg.maxHdr) :=
  ⟨⟨inv_atBound.2, inv_atBound.1, rfl, by decide, ⟨_, rfl⟩, by decide⟩,
    ⟨inv_belowBound.2, inv_belowBound.1, rfl, by decide, ⟨_, rfl⟩, by decide⟩⟩
/-- Complete, no data flag, one byte early, one byte late. -/
theorem witness_DataLengthIsLatchedWhenItsFieldIsComplete :
    (dat0.cfg.wf = true ∧ dat0.hasData = true ∧ dat0.hdrIdx = fldoff dat0.cfg dat0.flags dat0.cfg.fData + 2
      ∧ dat0.buf.read (fldoff dat0.cfg dat0.flags dat0.cfg.fData) = some 0x00
      ∧ dat0.buf.read (fldoff dat0.cfg dat0.flags dat0.cfg.fData + 1) = some 0x02)
    ∧ crc3.hasData = false
    ∧ hdr3.cfg.wf = true ∧ hdr3.hdrIdx ≠ fldoff hdr3.cfg hdr3.flags hdr3.cfg.fData + 2
    ∧ { dat0 with hdrIdx := 5 }.hdrIdx ≠ fldoff dat0.cfg dat0.flags dat0.cfg.fData + 2 := by decide
theorem holds_whole : whole.Holds [0xF0, 0x01, 0x22, 0x62, 0xC3, 0xD4] := by decide
/-- Not complete; data; checksum only; neither. -/
theorem witness_HeaderCompletionSelectsTheNextStage :
    hdr3.hdrIdx ≠ hdr3.hdrLen
    ∧ (dat0.hdrIdx = dat0.hdrLen ∧ dat0.hasData = true ∧ dat0.dataIdx ≠ dat0.dataLen.toNat)
    ∧ (crc3.hdrIdx = crc3.hdrLen ∧ crc3.hasData = false ∧ crc3.hasCrc = true)
    ∧ ({ whole with flags := 0 }.hdrIdx = whole.hdrLen ∧ { whole with flags := 0 }.hasData = false
      ∧ { whole with flags := 0 }.hasCrc = false
      ∧ { whole with flags := 0 }.Holds [0xF0, 0x01, 0x22, 0x62, 0xC3, 0xD4]) :=
  ⟨by decide, by decide, by decide, by decide, by decide, by decide, holds_whole⟩
/-- Not complete; checksum; hand-off. -/
theorem witness_DataCompletionSelectsTheNextStage :
    dat0.dataIdx ≠ dat0.dataLen.toNat
    ∧ ({ dat0 with dataIdx := 2 }.dataIdx = dat0.dataLen.toNat ∧ dat0.hasCrc = true)
    ∧ ({ dat1 with dataIdx := 2 }.dataIdx = dat1.dataLen.toNat ∧ dat1.hasCrc = false
      ∧ dat1.Holds [0xE0, 0x02, 0x00, 0x02, 0xAA]) := ⟨by decide, by decide, by decide, by decide, by decide⟩
/-- The last but one and the last data byte. -/
theorem witness_DataByteIsAppendedAndCounted :
    dat1.bufLen < bufCap dat1.cfg ∧ dat0.bufLen < bufCap dat0.cfg ∧ dat0.dataIdx + 1 ≠ dat0.dataLen.toNat := by decide
/-- The third and the fourth trailer byte; a matching and another value. -/
theorem witness_FourthTrailerByteDecidesTheFrame :
    ({ crc3 with crcIdx := 2 }.cfg.wf = true ∧ { crc3 with crcIdx := 2 }.bufLen < bufCap crc3.cfg ∧ { crc3 with crcIdx := 2 }.crcIdx ≠ 3)
    ∧ crc3.cfg.wf = true ∧ crc3.bufLen < bufCap crc3.cfg ∧ crc3.crcIdx = 3 ∧ crc3.Holds ([0xF0, 0x01] ++ [0x22, 0x62, 0xC3])
    ∧ (crc32 crc3.cfg [0xF0, 0x01]).toNat
        = (((0x22 : Byte).toNat * 256 + (0x62 : Byte).toNat) * 256 + (0xC3 : Byte).toNat) * 256 + (0xD4 : Byte).toNat
    ∧ (crc32 crc3.cfg [0xF0, 0x01]).toNat
        ≠ (((0x22 : Byte).toNat * 256 + (0x62 : Byte).toNat) * 256 + (0xC3 : Byte).toNat) * 256 + (0xD5 : Byte).toNat :=
  ⟨by decide, by decide, by decide, by decide, by decide, by decide +kernel, by decide +kernel⟩
theorem witness_HamdecHandsOverTheDecodedFlags :
    dat1.cfg.wf = true ∧ dat1.buf.read 0 = some 0xE0 ∧ dat1.buf.read 1 = some 0x02 := by decide
theorem witness_HdrlenHandsOverTheHeaderLength : dat1.cfg.wf = true := by decide
theorem witness_ReferenceCodeCorrectsSingleBitErrors : (2047 : Flags).toNat < 2048 ∧ 15 < 16 := by decide
theorem witness_ReferenceDecoderMeetsTheContract : Cfg.pElp.wf = true ∧ Cfg.pElp.ham = .elp := by decide
theorem witness_HeaderLengthSumsThePresentFields : Cfg.pElp.wf = true ∧ Cfg.pSmall.wf = true := by decide
/-- The first, a middle and the last entry of the reference table. -/
theorem witness_FldoffHandsOverTheOffset :
    Cfg.pElp.wf = true ∧ Cfg.pElp.fields = [] ++ ⟨0x400, 1, "NETSTATE"⟩ :: fieldsElp.drop 1
    ∧ Cfg.pElp.fields = fieldsElp.take 6 ++ ⟨0x010, 4, "ACKBLOCK"⟩ :: fieldsElp.drop 7
    ∧ Cfg.pElp.fields = fieldsElp.take 9 ++ ⟨0x002, 2, "DATALEN"⟩ :: []
    ∧ (∀ g ∈ fieldsElp.take 6, g.mask ≠ 0x010) ∧ (∀ g ∈ fieldsElp.take 9, g.mask ≠ 0x002)
    ∧ (0x412 : Flags) &&& 0x400 ≠ 0 ∧ (0x412 : Flags) &&& 0x010 ≠ 0 ∧ (0x412 : Flags) &&& 0x002 ≠ 0 := by decide
theorem witness_PresentFieldsTileTheHeader :
    Cfg.pElp.wf = true ∧ flagSet 0x412 0x010 = true ∧ flagSet 0x412 0x002 = true ∧ flagSet 0x412 Cfg.pElp.fData = true
    ∧ Cfg.pElp.fields = fieldsElp.take 6 ++ ⟨0x010, 4, "ACKBLOCK"⟩ :: [⟨0x008, 2, "CONTEXTID"⟩, ⟨0x004, 1, "DATATYPE"⟩]
        ++ ⟨0x002, 2, "DATALEN"⟩ :: []
    ∧ 2 ≤ 2 ∧ 2 < hdrlen Cfg.pElp 0x412 ∧ 2 ≤ 8 ∧ 8 < hdrlen Cfg.pElp 0x412 := by decide
theorem witness_HeaderBoundIsUnreachableWithTheReferenceFields :
    hdr3.cfg.wf = true ∧ hdr3.cfg.fields = fieldsElp ∧ 22 ≤ hdr3.cfg.maxHdr ∧ (given hdr3 [.byte 0x02]).Inv
    ∧ ∃ t, step (given hdr3 [.byte 0x02]) = .next t := ⟨by decide, by decide, by decide, inv_hdr3.1, _, rfl⟩
theorem witness_CrcchkComparesTheTrailer :
    whole.cfg.wf = true ∧ whole.Holds ([0xF0, 0x01] ++ [0x22, 0x62, 0xC3, 0xD4]) := ⟨by decide, holds_whole⟩
theorem witness_ReferenceCrcDetectsAnyOneByteChange : (0 : Byte) ≠ 1 := by decide
theorem witness_NoChecksummedFrameIsHandedOverUnverified :
    nextHas (step (given crc3 [.byte 0xD4]))
      (fun t => t.events == (given crc3 [.byte 0xD4]).events ++ [.dispatch [0xF0, 0x01, 0x22, 0x62, 0xC3, 0xD4] 0x001 2 0])
      = true ∧ flagSet 0x001 crc3.cfg.fCrc = true := by decide +kernel
theorem witness_DispatchHandsOverTheBufferThenClears : whole.Holds [0xF0, 0x01, 0x22, 0x62, 0xC3, 0xD4] := holds_whole
/-- A frame with data and without checksum. -/
theorem witness_HandedOverFrameHasTheDecodedShape :
    dat1.cfg.wf = true ∧ (given dat1 [.byte 0x55]).Inv ∧ (given dat1 [.byte 0x55]).Latched
    ∧ ∃ t, step (given dat1 [.byte 0x55]) = .next t
        ∧ t.events = dat1.events ++ [.dispatch [0xE0, 0x02, 0x00, 0x02, 0xAA, 0x55] 0x002 4 2] :=
  ⟨inv_dat1.2, inv_dat1.1, latched_dat1, _, rfl, by decide⟩
theorem witness_IngestIsTheFoldOfTheStep :
    (given hdr3 [.byte 1, .byte 2, .reset]).cfg.wf = true
    ∧ (given hdr3 [.byte 1, .byte 2, .reset]).input = [1, 2].map .byte ++ [.reset]
    ∧ (given hdr3 [.chunk [1, 2]]).input = .chunk [1, 2] :: [] ∧ hdr3.Inv :=
  ⟨by decide, by decide, by decide, inv_hdr3.1⟩
/-- Two data bytes, data and checksum flags: the frame of L1b. -/
theorem witness_SentFrameIsHandedOverExactly :
    State.reset.cfg.wf = true ∧ State.reset.Inv ∧ State.reset.state = .findStart ∧ State.reset.run = 0
    ∧ hamdec State.reset.cfg 0x1003 = 0x003 ∧ hdrlen State.reset.cfg 0x003 ≤ State.reset.cfg.maxHdr
    ∧ ([0xAA, 0x55] : List Byte).length ≤ 65535 :=
  ⟨by decide, ⟨by decide, by decide, by decide, by decide, by decide, by decide, by decide, by decide, by decide⟩,
    by decide, by decide, by decide, by decide, by decide⟩
/-- The content sent for L1b is what its vector shows. -/
theorem test_wireFrame_L1b :
    wireFrame Cfg.pElp (hamEncode 0x003) 0x003 (fun _ => 0) [0xAA, 0x55]
      = [0x3C, 0x3C, 0x3C, 0x3C, 0x10, 0x03, 0x00, 0x02, 0xAA, 0x55, 0xB9, 0xD9, 0xFC, 0x9E] := by decide +kernel
/-- One changed data byte of that frame; and one changed control-word byte that the code corrects. -/
theorem witness_OneCorruptedByteIsDiscarded :
    State.reset.cfg.wf = true ∧ State.reset.cfg.crc = .isoHdlc ∧ State.reset.Inv ∧ State.reset.state = .findStart
    ∧ State.reset.run = 0 ∧ hamdec State.reset.cfg 0x1003 = 0x003 ∧ hdrlen State.reset.cfg 0x003 ≤ State.reset.cfg.maxHdr
    ∧ flagSet 0x003 State.reset.cfg.fCrc = true
    ∧ contentBody State.reset.cfg 0x1003 0x003 (fun _ => 0) [0xAA, 0x55] = [0x10, 0x03, 0x00, 0x02] ++ 0xAA :: [0x55]
    ∧ contentBody State.reset.cfg 0x1003 0x003 (fun _ => 0) [0xAB, 0x55] = [0x10, 0x03, 0x00, 0x02] ++ 0xAB :: [0x55]
    ∧ (0xAA : Byte) ≠ 0xAB
    ∧ hamdec State.reset.cfg 0x1002 = 0x003
    ∧ contentBody State.reset.cfg 0x1003 0x003 (fun _ => 0) [0xAA, 0x55] = [0x10] ++ 0x03 :: [0x00, 0x02, 0xAA, 0x55]
    ∧ contentBody State.reset.cfg 0x1002 0x003 (fun _ => 0) [0xAA, 0x55] = [0x10] ++ 0x02 :: [0x00, 0x02, 0xAA, 0x55] :=
  ⟨by decide, by decide, witness_SentFrameIsHandedOverExactly.2.1, by decide, by decide, by decide, by decide, by decide,
    by decide, by decide, by decide, by decide, by decide, by decide⟩

end Sys2Proof.Tests
end

section
/-! The step with nothing to do (R4, R131) or with an illegal configuration (U1), and the contract R151 of the control-word
decoder. The idea for the contract: parity is linear over XOR and a code word has syndrome 0, so what the reference decoder
makes of a corrupted code word is the flags XOR what it makes of the error alone, and of a single bit it makes 0. -/

namespace Sys2Proof

/-- With the reference decoder, whose flags are 11 bits wide (R155), `FLAGS_W` is 11 (log 18). -/
theorem Cfg.flagsW_of_wf_of_elp {c : Cfg} (h : c.wf = true) (help : c.ham = .elp) : c.flagsW = 11 := by
  simp only [Cfg.wf, Cfg.flagsWf, help, Bool.and_eq_true] at h
  obtain ⟨-, -, -, -, ⟨-, -, -, -, -, hw⟩, -⟩ := h
  simpa using hw

namespace Machine

/-! ### The step -/

/-- Nothing at the inputs selects no operation (R4). -/
theorem fetch_of_input_eq_nil {s : State} (h : s.input = []) : fetch s = none := by
  simp only [fetch, h]

/-- Without an input a step changes nothing (R4, R131). -/
theorem step_of_input_eq_nil {s : State} (hw : s.cfg.wf = true) (h : s.input = []) : step s = .next s := by
  simp only [step, hw, if_true, fetch_of_input_eq_nil h]

/-- A configuration that breaks R7 is refused (U1). -/
theorem step_of_cfg_not_wf {s : State} (hw : s.cfg.wf = false) : step s = .refused .illFormedCfg := by
  simp only [step, hw, Bool.false_eq_true, if_false]

/-- Settles O11. -/
theorem stepWithoutInputOrLegalCfg : Obligations.StepWithoutInputOrLegalCfg :=
  ⟨fun _ hw hin => step_of_input_eq_nil hw hin, fun _ hw => step_of_cfg_not_wf hw⟩

/-! ### Parity is linear over XOR -/

theorem parityUpTo_xor (v w : Word16) (k : Nat) :
    parityUpTo (v ^^^ w) k = (parityUpTo v k ^^ parityUpTo w k) := by
  induction k with
  | zero => rfl
  | succ k ih => simp only [parityUpTo, ih, BitVec.getLsbD_xor, Bool.xor_assoc, Bool.xor_left_comm (parityUpTo w k)]

theorem xor_and_mask (v w m : Word16) : (v ^^^ w) &&& m = (v &&& m) ^^^ (w &&& m) := by
  ext i; simp only [BitVec.getElem_and, BitVec.getElem_xor, Bool.and_xor_distrib_right]

/-- The parity under a mask (the checks of R153 and of the encoder) is linear. -/
theorem par_xor_and (v w m : Word16) : par ((v ^^^ w) &&& m) = (par (v &&& m) ^^ par (w &&& m)) := by
  rw [xor_and_mask]
  exact parityUpTo_xor _ _ 16

/-! ### A code word passes the four checks -/

theorem getLsbD_bit (p : Bool) (i j : Nat) :
    (bit p i).getLsbD j = (decide (j < 16) && (p && decide (i = j))) := by
  cases p with
  | false => simp [bit]
  | true => simp only [bit, Bool.toNat_true, Nat.one_mul, BitVec.getLsbD_ofNat, Nat.testBit_two_pow, Bool.true_and]

theorem parityUpTo_bit_and (p : Bool) {i : Nat} (hi : i < 16) (m : Word16) (k : Nat) :
    parityUpTo (bit p i &&& m) k = (decide (i < k) && (p && m.getLsbD i)) := by
  induction k with
  | zero => simp [parityUpTo]
  | succ k ih =>
    rw [parityUpTo, ih, BitVec.getLsbD_and, getLsbD_bit]
    by_cases h : i = k
    · subst h; simp [hi]
    · have hlt : i < k + 1 ↔ i < k := by omega
      simp [h, hlt]

/-- One bit meets a mask where the mask has that bit. -/
theorem par_bit_and (p : Bool) {i : Nat} (hi : i < 16) (m : Word16) : par (bit p i &&& m) = (p && m.getLsbD i) := by
  simp [par, parityUpTo_bit_and p hi, hi]

/-- Setting a bit that is clear is flipping it. -/
theorem or_bit_eq_xor {v : Word16} (p : Bool) {i : Nat} (h : v.getLsbD i = false) : v ||| bit p i = v ^^^ bit p i := by
  apply BitVec.eq_of_getLsbD_eq
  intro j _
  rw [BitVec.getLsbD_or, BitVec.getLsbD_xor, getLsbD_bit]
  by_cases hij : i = j
  · simp [← hij, h]
  · simp [hij]

/-- A mask without the bit drops it. -/
theorem bit_and_eq_zero {m : Word16} (p : Bool) {i : Nat} (h : m.getLsbD i = false) : bit p i &&& m = 0 := by
  apply BitVec.eq_of_getLsbD_eq
  intro j _
  rw [BitVec.getLsbD_and, getLsbD_bit]
  by_cases hij : i = j
  · simp [← hij, h]
  · simp [hij]

/-- The parts of a code word stand in different bits, so its ORs are XORs. -/
theorem hamEncode_eq_xor (f : Flags) :
    hamEncode f = (f &&& 0x07FF) ^^^ bit (par (f &&& 0x071D)) 12 ^^^ bit (par (f &&& 0x04DB)) 13
      ^^^ bit (par (f &&& 0x01B7)) 14 ^^^ bit (par (f &&& 0x026F)) 15 := by
  rw [hamEncode, or_bit_eq_xor _ (i := 12), or_bit_eq_xor _ (i := 13), or_bit_eq_xor _ (i := 14),
    or_bit_eq_xor _ (i := 15)]
  -- the bit that each OR sets is clear in what stands before it
  all_goals
    simp only [BitVec.getLsbD_xor, BitVec.getLsbD_and, getLsbD_bit]
    simp

/-- The parity of a code word under a mask, from its data bits and its four parity bits (R152). -/
theorem par_hamEncode_and (f : Flags) (m : Word16) :
    par (hamEncode f &&& m) = (par (f &&& (0x07FF &&& m)) ^^ (par (f &&& 0x071D) && m.getLsbD 12)
      ^^ (par (f &&& 0x04DB) && m.getLsbD 13) ^^ (par (f &&& 0x01B7) && m.getLsbD 14)
      ^^ (par (f &&& 0x026F) && m.getLsbD 15)) := by
  simp only [hamEncode_eq_xor, par_xor_and, par_bit_and _ (show 12 < 16 by decide), par_bit_and _ (show 13 < 16 by decide),
    par_bit_and _ (show 14 < 16 by decide), par_bit_and _ (show 15 < 16 by decide), BitVec.and_assoc]

/-- Each check mask of R153 is an encoder mask with that check's own parity bit, so a code word passes all four. -/
theorem hamEncode_passes_checks (f : Flags) :
    par (hamEncode f &&& 0x826F) = false ∧ par (hamEncode f &&& 0x41B7) = false
      ∧ par (hamEncode f &&& 0x24DB) = false ∧ par (hamEncode f &&& 0x171D) = false := by
  simp [par_hamEncode_and]

/-- The syndrome of a corrupted code word is that of the error. -/
theorem syndrome_hamEncode_xor (f : Flags) (e : Word16) : syndrome (hamEncode f ^^^ e) = syndrome e := by
  obtain ⟨h0, h1, h2, h3⟩ := hamEncode_passes_checks f
  simp only [syndrome, par_xor_and, h0, h1, h2, h3, Bool.false_xor]

/-! ### Decoding a corrupted code word -/

/-- The data bits of a code word are the flags (R152). -/
theorem hamEncode_and_dataBits (f : Flags) : hamEncode f &&& 0x07FF = f &&& 0x07FF := by
  simp [hamEncode_eq_xor, xor_and_mask, bit_and_eq_zero, BitVec.and_assoc]

/-- What the reference decoder makes of a corrupted code word: the flags, XOR what it makes of the error alone. -/
theorem hamDecodeElp_hamEncode_xor (f : Flags) (e : Word16) :
    hamDecodeElp (hamEncode f ^^^ e) = (f &&& 0x07FF) ^^^ hamDecodeElp e := by
  simp only [hamDecodeElp, syndrome_hamEncode_xor, xor_and_mask, hamEncode_and_dataBits, BitVec.xor_assoc]

/-- An error of one bit alone decodes to no flags: the correction takes a data bit back, and the cut to bits 10..0 drops any
other (R154, R155). -/
theorem hamDecodeElp_singleBit : ∀ i, i < 16 → hamDecodeElp (BitVec.ofNat 16 (2 ^ i)) = 0 := by decide

/-- Flags of at most 11 bits lie in the data bits. -/
theorem and_dataBits_of_lt {f : Flags} (hf : f.toNat < 2 ^ 11) : f &&& 0x07FF = f := by
  apply BitVec.eq_of_toNat_eq
  rw [BitVec.toNat_and]
  exact (Nat.and_two_pow_sub_one_eq_mod f.toNat 11).trans (Nat.mod_eq_of_lt hf)

/-- An error that alone decodes to no flags is corrected. -/
theorem hamDecodeElp_corrects {f : Flags} (hf : f.toNat < 2 ^ 11) {e : Word16} (he : hamDecodeElp e = 0) :
    hamDecodeElp (hamEncode f ^^^ e) = f := by
  rw [hamDecodeElp_hamEncode_xor, he, and_dataBits_of_lt hf]
  exact BitVec.xor_zero

/-- R157 (a) without an error. -/
theorem hamDecodeElp_hamEncode {f : Flags} (hf : f.toNat < 2 ^ 11) : hamDecodeElp (hamEncode f) = f := by
  have h := hamDecodeElp_corrects hf (show hamDecodeElp 0 = 0 by decide)
  rwa [show hamEncode f ^^^ 0 = hamEncode f from BitVec.xor_zero] at h

/-! ### The contract -/

/-- The cut to `FLAGS_W` bits (log 8) is the one to the data bits. -/
theorem flagsMask_of_elp {c : Cfg} (hw : c.wf = true) (help : c.ham = .elp) : flagsMask c = 0x07FF := by
  rw [flagsMask, Cfg.flagsW_of_wf_of_elp hw help]; rfl

/-- A legal configuration's reference decoder is `hamDecodeElp` itself: the cut takes nothing more off. -/
theorem hamdec_of_elp {c : Cfg} (hw : c.wf = true) (help : c.ham = .elp) (raw : Word16) :
    hamdec c raw = hamDecodeElp raw := by
  simp only [hamdec, help, flagsMask_of_elp hw help, hamDecodeElp, BitVec.and_assoc, BitVec.and_self]

/-- R151 for the reference decoder, with the reference encoder. -/
theorem hamCorrects_of_elp {c : Cfg} (hw : c.wf = true) (help : c.ham = .elp) : HamCorrects c := by
  refine ⟨hamEncode, fun f hf => ?_⟩
  rw [Cfg.flagsW_of_wf_of_elp hw help] at hf
  simp only [hamdec_of_elp hw help]
  exact ⟨hamDecodeElp_hamEncode hf, fun i hi => hamDecodeElp_corrects hf (hamDecodeElp_singleBit i hi)⟩

/-- What the mask keeps is `FLAGS_W` bits wide. -/
theorem toNat_and_flagsMask_lt {c : Cfg} (hw : c.wf = true) (v : Flags) : (v &&& flagsMask c).toNat < 2 ^ c.flagsW := by
  obtain ⟨-, -, -, hle⟩ := Cfg.bounds_of_wf hw
  have hpos : 0 < 2 ^ c.flagsW := Nat.two_pow_pos _
  have hmask : (flagsMask c).toNat ≤ 2 ^ c.flagsW - 1 := by
    rw [flagsMask, BitVec.toNat_ofNat]; exact Nat.mod_le _ _
  calc (v &&& flagsMask c).toNat
      = v.toNat &&& (flagsMask c).toNat := BitVec.toNat_and ..
    _ ≤ (flagsMask c).toNat := Nat.and_le_right
    _ < 2 ^ c.flagsW := by omega

/-- Whatever the decoder, its flags are `FLAGS_W` bits wide (R7, R150). -/
theorem hamdec_toNat_lt {c : Cfg} (hw : c.wf = true) (raw : Word16) : (hamdec c raw).toNat < 2 ^ c.flagsW :=
  toNat_and_flagsMask_lt hw _

/-- Settles O39, with the reference encoder of R84 as the encoder that R151 asks for. -/
theorem referenceDecoderMeetsTheContract : Obligations.ReferenceDecoderMeetsTheContract :=
  ⟨fun _ hw help => hamCorrects_of_elp hw help, fun _ raw hw => hamdec_toNat_lt hw raw⟩

end Machine

end Sys2Proof
end

section
/-! What no operation writes (R31, R32, R62), and what a step can do. The idea: an operation appends its byte and then runs a
completion test, and a completion test moves to another parse state or ends the frame, nothing else (`Completion`). -/

namespace Sys2Proof.Machine

/-! ### The ends of operations -/

/-- What a completion test can do: go on in some parse state, or end the frame with an event and the reset (R125, R127,
R128). -/
inductive Completion (s : State) : State → Prop where
  | goesOn (st : ParseState) : Completion s { s with state := st }
  | ends (e : Event) : Completion s (frameReset (emit e s))

/-- The parse state before a completion test leaves no trace in what the test does. -/
theorem Completion.of_setState {s t : State} {st : ParseState} (h : Completion { s with state := st } t) :
    Completion s t := by
  cases h with
  | goesOn st' => exact .goesOn st'
  | ends e => exact .ends e

theorem discardFrame_completion (c : DiscardCause) (s : State) : Completion s (discardFrame c s) := .ends _

theorem dispatchFrame_completion {s t : State} (h : dispatchFrame s = .ok t) : Completion s t := by
  obtain ⟨frame, -, rfl⟩ := dispatchFrame_eq_ok.mp h
  exact .ends _

theorem dataDone_completion {s t : State} (h : dataDone s = .ok t) : Completion s t := by
  rcases dataDone_eq_ok.mp h with ⟨-, rfl⟩ | ⟨-, -, rfl⟩ | ⟨-, -, h⟩
  · exact .goesOn t.state
  · exact .goesOn .readChecksum
  · exact dispatchFrame_completion h

theorem hdrDone_completion {s t : State} (h : hdrDone s = .ok t) : Completion s t := by
  rcases hdrDone_eq_ok.mp h with ⟨-, rfl⟩ | ⟨-, -, h⟩ | ⟨-, -, -, rfl⟩ | ⟨-, -, -, h⟩
  · exact .goesOn t.state
  · exact (dataDone_completion h).of_setState
  · exact .goesOn .readChecksum
  · exact dispatchFrame_completion h

theorem crcComplete_completion {s t : State} (h : crcComplete s = .ok t) : Completion s t := by
  rcases crcComplete_eq_ok.mp h with ⟨-, h⟩ | ⟨-, rfl⟩
  · exact dispatchFrame_completion h
  · exact discardFrame_completion .crcMismatch s

/-! ### Configuration, inputs and emitted events (R31, R32, R62) -/

/-- `t` has the configuration and the inputs of `s`, and its events begin with those of `s`. -/
def State.ExtendedBy (s t : State) : Prop :=
  t.cfg = s.cfg ∧ t.input = s.input ∧ ∃ es, t.events = s.events ++ es

/-- An update that leaves the three fields alone. -/
theorem State.ExtendedBy.of_eq {s t : State} (hc : t.cfg = s.cfg) (hi : t.input = s.input) (he : t.events = s.events) :
    s.ExtendedBy t := ⟨hc, hi, [], by simp [he]⟩

theorem State.ExtendedBy.refl (s : State) : s.ExtendedBy s := .of_eq rfl rfl rfl

theorem State.ExtendedBy.trans {s u t : State} (h : s.ExtendedBy u) (k : u.ExtendedBy t) : s.ExtendedBy t := by
  obtain ⟨hc, hi, es, he⟩ := h
  obtain ⟨kc, ki, fs, ke⟩ := k
  exact ⟨kc.trans hc, ki.trans hi, es ++ fs, by rw [ke, he, List.append_assoc]⟩

theorem Completion.extendedBy {s t : State} (h : Completion s t) : s.ExtendedBy t := by
  cases h with
  | goesOn st => exact .of_eq rfl rfl rfl
  | ends e => exact ⟨rfl, rfl, [e], rfl⟩

theorem dlenLatch_extendedBy {s t : State} (h : dlenLatch s = .ok t) : s.ExtendedBy t := by
  rcases dlenLatch_eq_ok.mp h with ⟨-, -, _, -, rfl⟩ | ⟨-, rfl⟩
  · exact .of_eq rfl rfl rfl
  · exact .refl _

theorem stCw_extendedBy {b : Byte} {s t : State} (h : stCw b s = .ok t) : s.ExtendedBy t := by
  rcases stCw_eq_ok.mp h with ⟨-, rfl⟩ | ⟨-, -, ⟨-, rfl⟩ | ⟨-, h⟩⟩
  · exact (discardFrame_completion .hdrBound s).extendedBy
  · exact .of_eq rfl rfl rfl
  · obtain ⟨_, -, h⟩ := cwComplete_eq_ok.mp h
    exact .trans (.of_eq rfl rfl rfl) (hdrDone_completion h).extendedBy

theorem stHdr_extendedBy {b : Byte} {s t : State} (h : stHdr b s = .ok t) : s.ExtendedBy t := by
  rcases stHdr_eq_ok.mp h with ⟨-, rfl⟩ | ⟨-, -, u, hu, h⟩
  · exact (discardFrame_completion .hdrBound s).extendedBy
  · exact .trans (.of_eq rfl rfl rfl) ((dlenLatch_extendedBy hu).trans (hdrDone_completion h).extendedBy)

theorem stData_extendedBy {b : Byte} {s t : State} (h : stData b s = .ok t) : s.ExtendedBy t := by
  obtain ⟨-, h⟩ := stData_eq_ok.mp h
  exact .trans (.of_eq rfl rfl rfl) (dataDone_completion h).extendedBy

theorem stCrc_extendedBy {b : Byte} {s t : State} (h : stCrc b s = .ok t) : s.ExtendedBy t := by
  obtain ⟨-, ⟨-, rfl⟩ | ⟨-, h⟩⟩ := stCrc_eq_ok.mp h
  · exact .of_eq rfl rfl rfl
  · exact .trans (.of_eq rfl rfl rfl) (crcComplete_completion h).extendedBy

theorem stFind_eq_ok {b : Byte} {s t : State} : stFind b s = .ok t ↔ t = s := ok_eq_ok

/-- The state machine on a passed byte, by parse state (R82). -/
theorem passByte_cases {b : Byte} {s t : State} (h : passByte b s = .ok t) :
    (s.state = .findStart ∧ t = s) ∨ (s.state = .readControlWord ∧ stCw b s = .ok t)
    ∨ (s.state = .readHeader ∧ stHdr b s = .ok t) ∨ (s.state = .readData ∧ stData b s = .ok t)
    ∨ (s.state = .readChecksum ∧ stCrc b s = .ok t) := by
  unfold passByte at h
  cases hs : s.state <;> simp only [hs] at h
  case findStart => exact .inl ⟨rfl, stFind_eq_ok.mp h⟩
  all_goals simp [h]

theorem passByte_extendedBy {b : Byte} {s t : State} (h : passByte b s = .ok t) : s.ExtendedBy t := by
  rcases passByte_cases h with ⟨-, rfl⟩ | ⟨-, h⟩ | ⟨-, h⟩ | ⟨-, h⟩ | ⟨-, h⟩
  · exact .refl _
  · exact stCw_extendedBy h
  · exact stHdr_extendedBy h
  · exact stData_extendedBy h
  · exact stCrc_extendedBy h

theorem ldrSync_extendedBy {b : Byte} {s t : State} (h : ldrSync b s = .ok t) : s.ExtendedBy t := by
  rcases ldrSync_eq_ok.mp h with ⟨-, rfl⟩ | ⟨-, rfl⟩
  · exact .of_eq rfl rfl rfl
  · exact ⟨rfl, rfl, [_], rfl⟩

/-- The count is updated, then the byte is passed on (R100). -/
theorem passByte_run_extendedBy {b : Byte} {s t : State} {r : Nat} (h : passByte b { s with run := r } = .ok t) :
    s.ExtendedBy t := .trans (u := { s with run := r }) (.of_eq rfl rfl rfl) (passByte_extendedBy h)

theorem byteStep_extendedBy {b : Byte} {s t : State} (h : byteStep b s = .ok t) : s.ExtendedBy t := by
  rcases byteStep_cases h with ⟨-, -, h⟩ | ⟨-, -, -, rfl⟩ | ⟨-, -, h⟩ | ⟨-, h⟩
  · exact ldrSync_extendedBy h
  · exact .of_eq rfl rfl rfl
  · exact passByte_run_extendedBy h
  · exact passByte_run_extendedBy h

/-- A relation that holds of the empty run and is extended by a byte step in front holds along a whole chunk (R206). -/
theorem ingest_induction {R : State → State → Prop} (hnil : ∀ s, R s s)
    (hcons : ∀ {b s u t}, byteStep b s = .ok u → R u t → R s t) {bs : List Byte} {s t : State}
    (h : ingest bs s = .ok t) : R s t := by
  induction bs generalizing s with
  | nil => rw [ok_eq_ok.mp h]; exact hnil s
  | cons b bs ih =>
    obtain ⟨u, hu, ht⟩ := res_bind_eq_ok.mp h
    exact hcons hu (ih ht)

theorem ingest_extendedBy {bs : List Byte} {s t : State} (h : ingest bs s = .ok t) : s.ExtendedBy t :=
  ingest_induction (R := State.ExtendedBy) .refl (fun hb => (byteStep_extendedBy hb).trans) h

/-- A micro-operation that computes a value and only hands it over (R150, R170, R185, log 5). -/
theorem handOver_extendedBy {α : Type} {x : Res α} {out : α → MicroOut} {s t : State}
    (h : finish (x >>= fun a => .ok { s with ret := some (out a) }) = .next t) : s.ExtendedBy t := by
  obtain ⟨a, -, ha⟩ := res_bind_eq_ok.mp (finish_eq_next.mp h)
  rw [ok_eq_ok.mp ha]
  exact .of_eq rfl rfl rfl

theorem exec_extendedBy {i : Instr} {s t : State} (h : exec i s = .next t) : s.ExtendedBy t := by
  cases i with
  | ldrSync b => exact ldrSync_extendedBy (b := b) (finish_eq_next.mp h)
  | ldrPass b => exact passByte_run_extendedBy (finish_eq_next.mp h)
  | escDrop b => rw [ok_eq_ok.mp (finish_eq_next.mp h)]; exact .of_eq rfl rfl rfl
  | escPass b => exact passByte_run_extendedBy (finish_eq_next.mp h)
  | litPass b => exact passByte_run_extendedBy (finish_eq_next.mp h)
  | stFind b => rw [(stFind_eq_ok (b := b)).mp (finish_eq_next.mp h)]; exact .refl s
  | stCw b => exact stCw_extendedBy (finish_eq_next.mp h)
  | stHdr b => exact stHdr_extendedBy (finish_eq_next.mp h)
  | stData b => exact stData_extendedBy (finish_eq_next.mp h)
  | stCrc b => exact stCrc_extendedBy (finish_eq_next.mp h)
  | hamdec => exact handOver_extendedBy (x := hamdecBuf s) (out := .flags) h
  | hdrlen => exact handOver_extendedBy (x := .ok (hdrlen s.cfg s.flags)) (out := .length) h
  | fldoff m => exact handOver_extendedBy (x := .ok (fldoff s.cfg s.flags m)) (out := .offset) h
  | dlenLatch => exact dlenLatch_extendedBy (finish_eq_next.mp h)
  | hdrDone => exact (hdrDone_completion (finish_eq_next.mp h)).extendedBy
  | dataDone => exact (dataDone_completion (finish_eq_next.mp h)).extendedBy
  | crcchk => exact handOver_extendedBy (x := crcMatches s) (out := .verdict) h
  | dispatch => exact (dispatchFrame_completion (finish_eq_next.mp h)).extendedBy
  | discard c => rw [ok_eq_ok.mp (finish_eq_next.mp h)]; exact (discardFrame_completion c s).extendedBy
  | frameReset => rw [ok_eq_ok.mp (finish_eq_next.mp h)]; exact .of_eq rfl rfl rfl
  | ingest bs => exact ingest_extendedBy (finish_eq_next.mp h)
  | hwReset => rw [ok_eq_ok.mp (finish_eq_next.mp h)]; exact .of_eq rfl rfl rfl

/-- Settles O17. -/
theorem noInstructionWritesCfgOrInput : Obligations.NoInstructionWritesCfgOrInput :=
  fun _ _ _ h => exec_extendedBy h

/-! ### The step -/

/-- What a step can do: nothing without an input, else a byte, a chunk or the reset (R131, R206, R250). -/
theorem step_cases {s t : State} (h : step s = .next t) :
    s.cfg.wf = true ∧ ((s.input = [] ∧ t = s) ∨ ∃ rest,
      (∃ b, s.input = .byte b :: rest ∧ byteStep b { s with input := rest } = .ok t)
      ∨ (∃ bs, s.input = .chunk bs :: rest ∧ ingest bs { s with input := rest } = .ok t)
      ∨ (s.input = .reset :: rest ∧ t = frameReset { s with input := rest })) := by
  cases hw : s.cfg.wf with
  | false => rw [step_of_cfg_not_wf hw] at h; cases h
  | true =>
    refine ⟨rfl, ?_⟩
    cases hi : s.input with
    | nil => rw [step_of_input_eq_nil hw hi] at h; cases h; exact .inl ⟨rfl, rfl⟩
    | cons inp rest =>
      refine .inr ⟨rest, ?_⟩
      cases inp with
      | byte b => rw [step_byte hw hi] at h; exact .inl ⟨b, rfl, finish_eq_next.mp h⟩
      | chunk bs =>
        have hs : step s = finish (ingest bs { s with input := rest }) := by
          simp only [step, fetch, hw, hi, if_true, decodePort]; rfl
        exact .inr (.inl ⟨bs, rfl, finish_eq_next.mp (hs ▸ h)⟩)
      | reset =>
        have hs : step s = .next (frameReset { s with input := rest }) := by
          simp only [step, fetch, hw, hi, if_true, decodePort]; rfl
        rw [hs] at h; cases h
        exact .inr (.inr ⟨rfl, rfl⟩)

/-- What the byte steps and the reset keep, and the waiting inputs have no part in, every step keeps. -/
theorem step_keeps {P : State → Prop} (hin : ∀ {s l}, P s → P { s with input := l })
    (hreset : ∀ {s}, s.cfg.wf = true → P (frameReset s))
    (hbyte : ∀ {b s t}, byteStep b s = .ok t → s.cfg.wf = true → P s → P t)
    {s t : State} (hP : P s) (h : step s = .next t) : P t := by
  obtain ⟨hw, ⟨-, rfl⟩ | ⟨rest, ⟨b, -, h⟩ | ⟨bs, -, h⟩ | ⟨-, rfl⟩⟩⟩ := step_cases h
  · exact hP
  · exact hbyte h hw (hin hP)
  · exact ingest_induction (R := fun s t => s.cfg.wf = true → P s → P t) (fun _ _ hP => hP)
      (fun hb ih hw hP => ih ((byteStep_extendedBy hb).1 ▸ hw) (hbyte hb hw hP)) h hw (hin hP)
  · exact hreset hw

end Sys2Proof.Machine
end

section
/-! The invariant of R33 and the meaning of the latched registers (R27 to R29), at reset and along every step. A phase of a
frame is described up to and including its last byte (`AtHeader`, `AtData`); the invariant of its parse state is that
description with the phase not yet complete, and the completion test turns the one into the other. -/

namespace Sys2Proof.Machine

/-! ### Reset and sync -/

theorem atReset_frameReset (s : State) : (frameReset s).AtReset := ⟨rfl, rfl, rfl, rfl, rfl, rfl, rfl, rfl, rfl, rfl⟩

theorem atReset_resetWith (c : Cfg) : (State.resetWith c).AtReset := ⟨rfl, rfl, rfl, rfl, rfl, rfl, rfl, rfl, rfl, rfl⟩

/-- Settles O1. -/
theorem resetValuesOfEveryElement : Obligations.ResetValuesOfEveryElement :=
  ⟨fun c => ⟨atReset_resetWith c, rfl⟩, atReset_resetWith _,
    fun s => ⟨frameReset s, rfl, atReset_frameReset s, rfl⟩,
    fun s => ⟨frameReset s, rfl, atReset_frameReset s, rfl⟩⟩

/-- What R33 asks of the buffer, the leader count and the flags' width, whatever the parse state. -/
def State.Sound (s : State) : Prop :=
  s.buf.map (·.1) = List.range s.bufLen ∧ s.run < s.cfg.n ∧ s.flags.toNat < 2 ^ s.cfg.flagsW

theorem State.Inv.sound {s : State} (h : s.Inv) : s.Sound := by
  obtain ⟨hcells, hrun, hflags, -⟩ := h
  exact ⟨hcells, hrun, hflags⟩

theorem State.Inv.run_lt {s : State} (h : s.Inv) : s.run < s.cfg.n := by
  obtain ⟨-, hrun, -⟩ := h
  exact hrun

/-- An append keeps the cells of the buffer the indices below its length (R51). -/
theorem State.Sound.append {s : State} (h : s.Sound) (b : Byte) : (s.appended b).Sound :=
  h.imp_left (Memory.addresses_write_range b)

/-- The invariant in `FindStart`: nothing is held. -/
theorem inv_of_findStart {s : State} (hs : s.state = .findStart) (h : s.Sound)
    (h0 : s.bufLen = 0 ∧ s.hdrIdx = 0 ∧ s.dataIdx = 0 ∧ s.crcIdx = 0 ∧ s.flags = 0 ∧ s.hdrLen = 0 ∧ s.dataLen = 0) :
    s.Inv :=
  have ⟨hcells, hrun, hflags⟩ := h
  ⟨hcells, hrun, hflags, fun _ => h0, by simp [hs], by simp [State.Decoded, hs], by simp [hs], by simp [hs],
    by simp [hs]⟩

/-- The invariant in `ReadControlWord`: at most one byte is held, and nothing is decoded. -/
theorem inv_iff_of_readControlWord {s : State} (hs : s.state = .readControlWord) :
    s.Inv ↔ s.Sound ∧ s.hdrIdx = s.bufLen ∧ s.bufLen ≤ 1 ∧ s.dataIdx = 0 ∧ s.crcIdx = 0 ∧ s.flags = 0 ∧ s.hdrLen = 0
      ∧ s.dataLen = 0 := by
  constructor
  · intro h
    have hsound := h.sound
    obtain ⟨-, -, -, -, hcw, -⟩ := h
    exact ⟨hsound, hcw hs⟩
  · rintro ⟨⟨hcells, hrun, hflags⟩, hcw⟩
    exact ⟨hcells, hrun, hflags, by simp [hs], fun _ => hcw, by simp [State.Decoded, hs], by simp [hs],
      by simp [hs], by simp [hs]⟩

theorem sound_of_atReset {s : State} (hw : s.cfg.wf = true) (hbuf : s.buf = []) (hlen : s.bufLen = 0) (hrun : s.run = 0)
    (hflags : s.flags = 0) : s.Sound := by
  obtain ⟨hn, -⟩ := Cfg.bounds_of_wf hw
  exact ⟨by simp [hbuf, hlen], by omega, by simp [hflags]⟩

theorem inv_of_atReset {s : State} (hw : s.cfg.wf = true) (h : s.AtReset) : s.Inv := by
  obtain ⟨hstate, hrun, hbuf, hlen, hhdr, hdata, hcrc, hflags, hhl, hdl⟩ := h
  exact inv_of_findStart hstate (sound_of_atReset hw hbuf hlen hrun hflags) ⟨hlen, hhdr, hdata, hcrc, hflags, hhl, hdl⟩

theorem inv_of_atSync {s : State} (hw : s.cfg.wf = true) (h : s.AtSync) : s.Inv := by
  obtain ⟨hstate, hrun, hbuf, hlen, hhdr, hdata, hcrc, hflags, hhl, hdl⟩ := h
  exact (inv_iff_of_readControlWord hstate).mpr ⟨sound_of_atReset hw hbuf hlen hrun hflags, hhdr.trans hlen.symm,
    hlen.trans_le zero_le_one, hdata, hcrc, hflags, hhl, hdl⟩

theorem inv_frameReset {s : State} (hw : s.cfg.wf = true) : (frameReset s).Inv :=
  inv_of_atReset hw (atReset_frameReset s)

theorem not_decoded_of_findStart {s : State} (hs : s.state = .findStart) : ¬ s.Decoded := by simp [State.Decoded, hs]

theorem not_decoded_of_readControlWord {s : State} (hs : s.state = .readControlWord) : ¬ s.Decoded := by
  simp [State.Decoded, hs]

/-- Before the control word is decoded the registers mean nothing (R27). -/
theorem latched_of_not_decoded {s : State} (h : ¬ s.Decoded) : s.Latched := fun hd => absurd hd h

theorem latched_frameReset (s : State) : (frameReset s).Latched := latched_of_not_decoded (not_decoded_of_findStart rfl)

theorem inv_and_latched_resetWith {c : Cfg} (hw : c.wf = true) : (State.resetWith c).Inv ∧ (State.resetWith c).Latched :=
  ⟨inv_of_atReset hw (atReset_resetWith c), latched_of_not_decoded (not_decoded_of_findStart rfl)⟩

theorem pElp_wf : Cfg.pElp.wf = true := by decide

/-- Settles O4. -/
theorem invariantHoldsAtReset : Obligations.InvariantHoldsAtReset :=
  ⟨fun _ hw => inv_and_latched_resetWith hw, pElp_wf, inv_and_latched_resetWith pElp_wf⟩

/-! ### The phases of a frame, up to and including their last byte -/

/-- The control word is decoded: the header length is that of the flags, and without a data field there is no data length
(R28, R29). -/
def State.Resolved (s : State) : Prop :=
  s.hdrLen = hdrlen s.cfg s.flags ∧ (s.hasData = false → s.dataLen = 0)

/-- Header bytes have been taken, perhaps all of them (R123). -/
structure State.AtHeader (s : State) : Prop where
  sound : s.Sound
  resolved : s.Resolved
  two_le : 2 ≤ s.hdrIdx
  hdrIdx_eq : s.hdrIdx = s.bufLen
  le_maxHdr : s.hdrIdx ≤ s.cfg.maxHdr
  le_hdrLen : s.hdrIdx ≤ s.hdrLen
  dataIdx_eq : s.dataIdx = 0
  crcIdx_eq : s.crcIdx = 0

/-- The header is complete, and data bytes have been taken, perhaps none or all of them (R126). -/
structure State.AtData (s : State) : Prop where
  sound : s.Sound
  resolved : s.Resolved
  hasData : s.hasData = true
  hdrIdx_eq : s.hdrIdx = s.hdrLen
  le_maxHdr : s.hdrIdx ≤ s.cfg.maxHdr
  le_dataLen : s.dataIdx ≤ s.dataLen.toNat
  bufLen_eq : s.bufLen = s.hdrLen + s.dataIdx
  crcIdx_eq : s.crcIdx = 0

/-- Header and data are complete, and trailer bytes have been taken, not yet all of them (R128). -/
structure State.AtChecksum (s : State) : Prop where
  sound : s.Sound
  resolved : s.Resolved
  hasCrc : s.hasCrc = true
  hdrIdx_eq : s.hdrIdx = s.hdrLen
  le_maxHdr : s.hdrIdx ≤ s.cfg.maxHdr
  dataIdx_eq : s.dataIdx = s.dataLen.toNat
  crcIdx_le : s.crcIdx ≤ 3
  bufLen_eq : s.bufLen = s.hdrLen + s.dataLen.toNat + s.crcIdx

theorem State.Inv.resolved {s : State} (h : s.Inv) (hd : s.Decoded) : s.Resolved := by
  obtain ⟨-, -, -, -, -, hres, -⟩ := h
  exact hres hd

theorem inv_iff_of_readHeader {s : State} (hs : s.state = .readHeader) :
    s.Inv ↔ s.AtHeader ∧ s.hdrIdx ≠ s.hdrLen := by
  constructor
  · intro h
    have hsound := h.sound
    have hres := h.resolved (.inl hs)
    obtain ⟨-, -, -, -, -, -, hhdr, -⟩ := h
    obtain ⟨htwo, hlen, hmax, hlt, hdata, hcrc⟩ := hhdr hs
    exact ⟨⟨hsound, hres, htwo, hlen, hmax, hlt.le, hdata, hcrc⟩, hlt.ne⟩
  · rintro ⟨⟨⟨hcells, hrun, hflags⟩, hres, htwo, hlen, hmax, hle, hdata, hcrc⟩, hne⟩
    exact ⟨hcells, hrun, hflags, by simp [hs], by simp [hs], fun _ => hres,
      fun _ => ⟨htwo, hlen, hmax, lt_of_le_of_ne hle hne, hdata, hcrc⟩, by simp [hs], by simp [hs]⟩

theorem inv_iff_of_readData {s : State} (hs : s.state = .readData) :
    s.Inv ↔ s.AtData ∧ s.dataIdx ≠ s.dataLen.toNat := by
  constructor
  · intro h
    have hsound := h.sound
    have hres := h.resolved (.inr (.inl hs))
    obtain ⟨-, -, -, -, -, -, -, hdat, -⟩ := h
    obtain ⟨hhdr, hmax, hhas, hlt, hlen, hcrc⟩ := hdat hs
    exact ⟨⟨hsound, hres, hhas, hhdr, hmax, hlt.le, hlen, hcrc⟩, hlt.ne⟩
  · rintro ⟨⟨⟨hcells, hrun, hflags⟩, hres, hhas, hhdr, hmax, hle, hlen, hcrc⟩, hne⟩
    exact ⟨hcells, hrun, hflags, by simp [hs], by simp [hs], fun _ => hres,
      by simp [hs], fun _ => ⟨hhdr, hmax, hhas, lt_of_le_of_ne hle hne, hlen, hcrc⟩, by simp [hs]⟩

theorem inv_iff_of_readChecksum {s : State} (hs : s.state = .readChecksum) : s.Inv ↔ s.AtChecksum := by
  constructor
  · intro h
    have hsound := h.sound
    have hres := h.resolved (.inr (.inr hs))
    obtain ⟨-, -, -, -, -, -, -, -, hchk⟩ := h
    obtain ⟨hhas, hhdr, hmax, hdata, hcrc, hlen⟩ := hchk hs
    exact ⟨hsound, hres, hhas, hhdr, hmax, hdata, hcrc, hlen⟩
  · rintro ⟨⟨hcells, hrun, hflags⟩, hres, hhas, hhdr, hmax, hdata, hcrc, hlen⟩
    exact ⟨hcells, hrun, hflags, by simp [hs], by simp [hs], fun _ => hres,
      by simp [hs], by simp [hs], fun _ => ⟨hhas, hhdr, hmax, hdata, hcrc, hlen⟩⟩

/-! ### The bound on the buffer (R33.7, R57) -/

/-- Phase by phase: the header is at most `MAX_HDR` bytes, the data at most 65535, the trailer not yet complete. -/
theorem bufLen_le_of_inv {s : State} (h : s.Inv) : s.bufLen ≤ s.cfg.maxHdr + 65535 + 3 := by
  have hdl : s.dataLen.toNat < 2 ^ 16 := s.dataLen.isLt
  cases hs : s.state with
  | findStart =>
    obtain ⟨-, -, -, hfind, -⟩ := h
    obtain ⟨hlen, -⟩ := hfind hs
    omega
  | readControlWord =>
    obtain ⟨-, -, hlen, -⟩ := (inv_iff_of_readControlWord hs).mp h
    omega
  | readHeader =>
    obtain ⟨hh, -⟩ := (inv_iff_of_readHeader hs).mp h
    have := hh.hdrIdx_eq
    have := hh.le_maxHdr
    omega
  | readData =>
    obtain ⟨hdat, -⟩ := (inv_iff_of_readData hs).mp h
    have := hdat.hdrIdx_eq
    have := hdat.le_maxHdr
    have := hdat.le_dataLen
    have := hdat.bufLen_eq
    omega
  | readChecksum =>
    have hchk := (inv_iff_of_readChecksum hs).mp h
    have := hchk.hdrIdx_eq
    have := hchk.le_maxHdr
    have := hchk.crcIdx_le
    have := hchk.bufLen_eq
    omega

/-- Settles O16. -/
theorem bufferStaysWithinCapacity : Obligations.BufferStaysWithinCapacity := by
  intro s hw h
  have hle := bufLen_le_of_inv h
  obtain ⟨-, -, hcrc⟩ := Cfg.widths_of_wf hw
  exact ⟨hle, by rw [bufCap, hcrc]; omega⟩

/-! ### The invariant: completion tests, then bytes -/

theorem dispatchFrame_inv {s t : State} (h : dispatchFrame s = .ok t) (hw : s.cfg.wf = true) : t.Inv := by
  obtain ⟨frame, -, rfl⟩ := dispatchFrame_eq_ok.mp h
  exact inv_frameReset hw

theorem dataDone_inv {s t : State} (h : dataDone s = .ok t) (hw : s.cfg.wf = true) (hs : s.state = .readData)
    (hd : s.AtData) : t.Inv := by
  rcases dataDone_eq_ok.mp h with ⟨hne, rfl⟩ | ⟨heq, hcrc, rfl⟩ | ⟨-, -, h⟩
  · exact (inv_iff_of_readData hs).mpr ⟨hd, hne⟩
  · obtain ⟨hsound, hres, -, hhdr, hmax, -, hlen, hidx⟩ := hd
    have hlen' : s.bufLen = s.hdrLen + s.dataLen.toNat + s.crcIdx := by omega
    exact (inv_iff_of_readChecksum rfl).mpr
      ⟨hsound, hres, hcrc, hhdr, hmax, heq, hidx.trans_le (Nat.zero_le _), hlen'⟩
  · exact dispatchFrame_inv h hw

theorem hdrDone_inv {s t : State} (h : hdrDone s = .ok t) (hw : s.cfg.wf = true) (hs : s.state = .readHeader)
    (hh : s.AtHeader) : t.Inv := by
  have hlen := hh.hdrIdx_eq
  have hdata := hh.dataIdx_eq
  rcases hdrDone_eq_ok.mp h with ⟨hne, rfl⟩ | ⟨heq, hhas, h⟩ | ⟨heq, hhas, hcrc, rfl⟩ | ⟨-, -, -, h⟩
  · exact (inv_iff_of_readHeader hs).mpr ⟨hh, hne⟩
  · have hlen' : s.bufLen = s.hdrLen + s.dataIdx := by omega
    exact dataDone_inv h hw rfl
      ⟨hh.sound, hh.resolved, hhas, heq, hh.le_maxHdr, hdata.trans_le (Nat.zero_le _), hlen', hh.crcIdx_eq⟩
  · have hdl : s.dataLen.toNat = 0 := by simp [hh.resolved.2 hhas]
    have hcrcIdx := hh.crcIdx_eq
    have hlen' : s.bufLen = s.hdrLen + s.dataLen.toNat + s.crcIdx := by omega
    exact (inv_iff_of_readChecksum rfl).mpr ⟨hh.sound, hh.resolved, hcrc, heq, hh.le_maxHdr, hdata.trans hdl.symm,
      hcrcIdx.trans_le (Nat.zero_le _), hlen'⟩
  · exact dispatchFrame_inv h hw

/-- The second control-word byte: the flags are `FLAGS_W` bits wide, and the header is at least the control word (R122). -/
theorem cwComplete_inv {s t : State} (h : cwComplete s = .ok t) (hw : s.cfg.wf = true) (hsound : s.Sound)
    (hidx : s.hdrIdx = 2) (hlen : s.bufLen = 2) (hdata : s.dataIdx = 0) (hcrc : s.crcIdx = 0) (hdl : s.dataLen = 0) :
    t.Inv := by
  obtain ⟨cw, -, h⟩ := cwComplete_eq_ok.mp h
  obtain ⟨-, hmax, -⟩ := Cfg.bounds_of_wf hw
  obtain ⟨hcw, -⟩ := Cfg.widths_of_wf hw
  obtain ⟨hcells, hrun, -⟩ := hsound
  exact hdrDone_inv h hw rfl ⟨⟨hcells, hrun, hamdec_toNat_lt hw _⟩, ⟨rfl, fun _ => hdl⟩, hidx.ge, hidx.trans hlen.symm,
    hidx.trans_le hmax, by dsimp only [hdrlen]; omega, hdata, hcrc⟩

theorem stCw_inv {b : Byte} {s t : State} (h : stCw b s = .ok t) (hw : s.cfg.wf = true)
    (hs : s.state = .readControlWord) (hinv : s.Inv) : t.Inv := by
  obtain ⟨hsound, hidx, hlen, hdata, hcrc, hflags, hhl, hdl⟩ := (inv_iff_of_readControlWord hs).mp hinv
  obtain ⟨hcw, -⟩ := Cfg.widths_of_wf hw
  have happ := hsound.append b
  rcases stCw_eq_ok.mp h with ⟨-, rfl⟩ | ⟨-, -, ⟨hne, rfl⟩ | ⟨heq, h⟩⟩
  · exact inv_frameReset hw
  · have hone : s.bufLen + 1 ≤ 1 := by omega
    refine (inv_iff_of_readControlWord ?_).mpr ⟨happ, congrArg (· + 1) hidx, hone, hdata, hcrc, hflags, hhl, hdl⟩
    exact hs
  · have htwo : s.hdrIdx + 1 = 2 := heq.trans hcw
    exact cwComplete_inv h hw happ htwo (hidx ▸ htwo) hdata hcrc hdl

/-- A header byte that the header still lacks (R123). -/
theorem State.AtHeader.append {s : State} (h : s.AtHeader) (hne : s.hdrIdx ≠ s.hdrLen) (hmax : s.hdrIdx < s.cfg.maxHdr)
    (b : Byte) : State.AtHeader { s.appended b with hdrIdx := s.hdrIdx + 1 } := by
  obtain ⟨hsound, hres, htwo, hlen, -, hle, hdata, hcrc⟩ := h
  exact ⟨hsound.append b, hres, Nat.le_succ_of_le htwo, congrArg (· + 1) hlen, hmax, lt_of_le_of_ne hle hne, hdata, hcrc⟩

/-- The latch writes the data length only where there is a data field. -/
theorem dlenLatch_atHeader {s u : State} (h : dlenLatch s = .ok u) (hh : s.AtHeader) :
    u.AtHeader ∧ u.state = s.state ∧ u.cfg = s.cfg := by
  rcases dlenLatch_eq_ok.mp h with ⟨hhas, -, bytes, -, rfl⟩ | ⟨-, rfl⟩
  · obtain ⟨hsound, hres, htwo, hlen, hmax, hle, hdata, hcrc⟩ := hh
    have hnone : s.hasData = false → be16 bytes = 0 := fun hno => by simp [hhas] at hno
    exact ⟨⟨hsound, ⟨hres.1, hnone⟩, htwo, hlen, hmax, hle, hdata, hcrc⟩, rfl, rfl⟩
  · exact ⟨hh, rfl, rfl⟩

theorem stHdr_inv {b : Byte} {s t : State} (h : stHdr b s = .ok t) (hw : s.cfg.wf = true)
    (hs : s.state = .readHeader) (hinv : s.Inv) : t.Inv := by
  obtain ⟨hh, hne⟩ := (inv_iff_of_readHeader hs).mp hinv
  rcases stHdr_eq_ok.mp h with ⟨-, rfl⟩ | ⟨hlt, -, u, hu, h⟩
  · exact inv_frameReset hw
  · obtain ⟨hhu, hstate, hcfg⟩ := dlenLatch_atHeader hu (hh.append hne hlt b)
    exact hdrDone_inv h (hcfg ▸ hw) (hstate.trans hs) hhu

theorem stData_inv {b : Byte} {s t : State} (h : stData b s = .ok t) (hw : s.cfg.wf = true)
    (hs : s.state = .readData) (hinv : s.Inv) : t.Inv := by
  obtain ⟨⟨hsound, hres, hhas, hhdr, hmax, hle, hlen, hcrc⟩, hne⟩ := (inv_iff_of_readData hs).mp hinv
  obtain ⟨-, h⟩ := stData_eq_ok.mp h
  exact dataDone_inv h hw hs
    ⟨hsound.append b, hres, hhas, hhdr, hmax, lt_of_le_of_ne hle hne, congrArg (· + 1) hlen, hcrc⟩

theorem stCrc_inv {b : Byte} {s t : State} (h : stCrc b s = .ok t) (hw : s.cfg.wf = true)
    (hs : s.state = .readChecksum) (hinv : s.Inv) : t.Inv := by
  obtain ⟨hsound, hres, hhas, hhdr, hmax, hdata, hcrc, hlen⟩ := (inv_iff_of_readChecksum hs).mp hinv
  obtain ⟨-, -, hwidth⟩ := Cfg.widths_of_wf hw
  obtain ⟨-, ⟨hne, rfl⟩ | ⟨-, h⟩⟩ := stCrc_eq_ok.mp h
  · have hidx : s.crcIdx + 1 ≤ 3 := by omega
    refine (inv_iff_of_readChecksum ?_).mpr
      ⟨hsound.append b, hres, hhas, hhdr, hmax, hdata, hidx, congrArg (· + 1) hlen⟩
    exact hs
  · rcases crcComplete_eq_ok.mp h with ⟨-, h⟩ | ⟨-, rfl⟩
    · exact dispatchFrame_inv h hw
    · exact inv_frameReset hw

theorem passByte_inv {b : Byte} {s t : State} (h : passByte b s = .ok t) (hw : s.cfg.wf = true) (hinv : s.Inv) :
    t.Inv := by
  rcases passByte_cases h with ⟨-, rfl⟩ | ⟨hs, h⟩ | ⟨hs, h⟩ | ⟨hs, h⟩ | ⟨hs, h⟩
  · exact hinv
  · exact stCw_inv h hw hs hinv
  · exact stHdr_inv h hw hs hinv
  · exact stData_inv h hw hs hinv
  · exact stCrc_inv h hw hs hinv

/-- R33 asks of the leader count only that it be below `N` (R107). -/
theorem State.Inv.setRun {s : State} (h : s.Inv) {r : Nat} (hr : r < s.cfg.n) : State.Inv { s with run := r } := by
  obtain ⟨hcells, -, hrest⟩ := h
  exact ⟨hcells, hr, hrest⟩

theorem ldrSync_atSync {b : Byte} {s t : State} (h : ldrSync b s = .ok t) : t.AtSync := by
  rcases ldrSync_eq_ok.mp h with ⟨-, rfl⟩ | ⟨-, rfl⟩ <;> exact ⟨rfl, rfl, rfl, rfl, rfl, rfl, rfl, rfl, rfl, rfl⟩

theorem byteStep_inv {b : Byte} {s t : State} (h : byteStep b s = .ok t) (hw : s.cfg.wf = true) (hinv : s.Inv) :
    t.Inv := by
  have hrun := hinv.run_lt
  obtain ⟨hcfg, -⟩ := byteStep_extendedBy h
  rcases byteStep_cases h with ⟨-, -, h⟩ | ⟨-, -, -, rfl⟩ | ⟨-, hne, h⟩ | ⟨-, h⟩
  · exact inv_of_atSync (hcfg ▸ hw) (ldrSync_atSync h)
  · exact hinv.setRun (Nat.zero_lt_of_lt hrun)
  · exact passByte_inv h hw (hinv.setRun (lt_of_le_of_ne hrun hne))
  · exact passByte_inv h hw (hinv.setRun (Nat.zero_lt_of_lt hrun))

/-- Settles O13. -/
theorem everyStepKeepsTheInvariant : Obligations.EveryStepKeepsTheInvariant :=
  fun _ _ hinv h => step_keeps (P := State.Inv) id inv_frameReset byteStep_inv hinv h

/-! ### The meaning of the latched registers -/

/-- The latched registers say what the buffer says: the flags its control word, and the data length its data-length field once
that is complete (R27, R29). -/
def State.BufferBacked (s : State) : Prop :=
  (∃ cw, s.buf.readRange 0 2 = some cw ∧ s.flags = hamdec s.cfg (be16 cw))
  ∧ (s.hasData = true → fldoff s.cfg s.flags s.cfg.fData + 2 ≤ s.hdrIdx →
      ∃ bs, s.buf.readRange (fldoff s.cfg s.flags s.cfg.fData) 2 = some bs ∧ s.dataLen = be16 bs)

theorem latched_iff {s : State} : s.Latched ↔ (s.Decoded → s.BufferBacked) := Iff.rfl

/-- A completion test writes no latched register but where it ends the frame. -/
theorem Completion.latched {s t : State} (h : Completion s t) (hb : s.BufferBacked) : t.Latched := by
  cases h with
  | goesOn st => exact fun _ => hb
  | ends e => exact latched_frameReset _

/-- A write does not disturb what stands before it. -/
theorem Memory.readRange_write_of_le (m : Memory) (v : Byte) {a k x : Nat} (h : a + k ≤ x) :
    (m.write x v).readRange a k = m.readRange a k := by
  induction k generalizing a with
  | zero => rfl
  | succ k ih =>
    simp only [Memory.readRange, Memory.read_write_other m v (show a ≠ x by omega), ih (show a + 1 + k ≤ x by omega)]

/-- Once the control word is decoded, it and the header bytes counted stand in the buffer. -/
theorem header_in_buffer {s : State} (hw : s.cfg.wf = true) (hinv : s.Inv) (hd : s.Decoded) :
    2 ≤ s.bufLen ∧ s.hdrIdx ≤ s.bufLen := by
  obtain ⟨hhl, -⟩ := hinv.resolved hd
  have htwo : 2 ≤ s.hdrLen := by
    obtain ⟨hcw, -⟩ := Cfg.widths_of_wf hw
    rw [hhl, hdrlen, hcw]
    exact Nat.le_add_right _ _
  rcases hd with hs | hs | hs
  · obtain ⟨hh, -⟩ := (inv_iff_of_readHeader hs).mp hinv
    exact hh.hdrIdx_eq ▸ ⟨hh.two_le, le_rfl⟩
  · obtain ⟨hdat, -⟩ := (inv_iff_of_readData hs).mp hinv
    have hlen := hdat.bufLen_eq
    exact ⟨by omega, by rw [hdat.hdrIdx_eq]; omega⟩
  · have hchk := (inv_iff_of_readChecksum hs).mp hinv
    have hlen := hchk.bufLen_eq
    exact ⟨by omega, by rw [hchk.hdrIdx_eq]; omega⟩

/-- An append leaves the bytes that the latched registers come from. -/
theorem State.BufferBacked.append {s : State} (h : s.BufferBacked) (htwo : 2 ≤ s.bufLen) (hle : s.hdrIdx ≤ s.bufLen)
    (b : Byte) : (s.appended b).BufferBacked := by
  obtain ⟨⟨cw, hcw, hflags⟩, hdata⟩ := h
  refine ⟨⟨cw, ?_, hflags⟩, fun hhas hidx => ?_⟩
  · exact (Memory.readRange_write_of_le _ b (by omega)).trans hcw
  · obtain ⟨bs, hbs, hdl⟩ := hdata hhas hidx
    exact ⟨bs, (Memory.readRange_write_of_le _ b (hidx.trans hle)).trans hbs, hdl⟩

theorem bufferBacked_appended {s : State} (hw : s.cfg.wf = true) (hinv : s.Inv) (hl : s.Latched) (hd : s.Decoded)
    (b : Byte) : (s.appended b).BufferBacked := by
  obtain ⟨htwo, hle⟩ := header_in_buffer hw hinv hd
  exact (latched_iff.mp hl hd).append htwo hle b

/-- A present data-length field begins after the control word (R172). -/
theorem two_le_fldoff_fData {c : Cfg} {fl : Flags} (hw : c.wf = true) (h : flagSet fl c.fData = true) :
    2 ≤ fldoff c fl c.fData := by
  obtain ⟨⟨f, hf, hm⟩, -⟩ := Cfg.dataField_of_wf hw
  obtain ⟨hcw, -⟩ := Cfg.widths_of_wf hw
  have hany : c.fields.any (fun f => f.mask == c.fData) = true := List.any_eq_true.mpr ⟨f, hf, beq_iff_eq.mpr hm⟩
  have hpres : fieldPresent c fl c.fData = true := by rw [fieldPresent, h, hany]; rfl
  rw [fldoff, if_pos hpres, hcw]
  exact Nat.le_add_right _ _

/-- At the second control-word byte the flags are decoded, and no data-length field is complete yet (R122). -/
theorem cwComplete_latched {s t : State} (h : cwComplete s = .ok t) (hw : s.cfg.wf = true) (hidx : s.hdrIdx = 2) :
    t.Latched := by
  obtain ⟨cw, hread, h⟩ := cwComplete_eq_ok.mp h
  obtain ⟨hcw, -⟩ := Cfg.widths_of_wf hw
  rw [hcw] at hread
  refine (hdrDone_completion h).latched ⟨⟨cw, hread, rfl⟩, fun hhas hle => ?_⟩
  have htwo := two_le_fldoff_fData hw hhas
  dsimp only at htwo hle
  omega

theorem stCw_latched {b : Byte} {s t : State} (h : stCw b s = .ok t) (hw : s.cfg.wf = true)
    (hs : s.state = .readControlWord) : t.Latched := by
  obtain ⟨hcw, -⟩ := Cfg.widths_of_wf hw
  rcases stCw_eq_ok.mp h with ⟨-, rfl⟩ | ⟨-, -, ⟨-, rfl⟩ | ⟨heq, h⟩⟩
  · exact latched_frameReset _
  · exact latched_of_not_decoded (not_decoded_of_readControlWord hs)
  · exact cwComplete_latched h hw (heq.trans hcw)

/-- The header byte that completes the data-length field is the one at which the latch reads it; any other leaves the field as
complete or incomplete as it was (R124). -/
theorem dlenLatch_bufferBacked {s u : State} (h : dlenLatch { s with hdrIdx := s.hdrIdx + 1 } = .ok u)
    (hw : s.cfg.wf = true) (hb : s.BufferBacked) : u.BufferBacked := by
  obtain ⟨-, hwidth, -⟩ := Cfg.widths_of_wf hw
  rcases dlenLatch_eq_ok.mp h with ⟨-, -, bs, hbs, rfl⟩ | ⟨hnot, rfl⟩
  · rw [hwidth] at hbs
    exact ⟨hb.1, fun _ _ => ⟨bs, hbs, rfl⟩⟩
  · rw [hwidth] at hnot
    refine ⟨hb.1, fun hhas hle => hb.2 hhas ?_⟩
    exact Nat.le_of_lt_succ (lt_of_le_of_ne hle fun heq => hnot ⟨hhas, heq.symm⟩)

theorem stHdr_latched {b : Byte} {s t : State} (h : stHdr b s = .ok t) (hw : s.cfg.wf = true)
    (hs : s.state = .readHeader) (hinv : s.Inv) (hl : s.Latched) : t.Latched := by
  rcases stHdr_eq_ok.mp h with ⟨-, rfl⟩ | ⟨-, -, u, hu, h⟩
  · exact latched_frameReset _
  · have hb := bufferBacked_appended hw hinv hl (.inl hs) b
    exact (hdrDone_completion h).latched (dlenLatch_bufferBacked (s := s.appended b) hu hw hb)

theorem stData_latched {b : Byte} {s t : State} (h : stData b s = .ok t) (hw : s.cfg.wf = true)
    (hs : s.state = .readData) (hinv : s.Inv) (hl : s.Latched) : t.Latched := by
  have hb := bufferBacked_appended hw hinv hl (.inr (.inl hs)) b
  obtain ⟨-, h⟩ := stData_eq_ok.mp h
  exact (dataDone_completion h).latched hb

theorem stCrc_latched {b : Byte} {s t : State} (h : stCrc b s = .ok t) (hw : s.cfg.wf = true)
    (hs : s.state = .readChecksum) (hinv : s.Inv) (hl : s.Latched) : t.Latched := by
  have hb := bufferBacked_appended hw hinv hl (.inr (.inr hs)) b
  obtain ⟨-, ⟨-, rfl⟩ | ⟨-, h⟩⟩ := stCrc_eq_ok.mp h
  · exact fun _ => hb
  · exact (crcComplete_completion h).latched hb

theorem passByte_latched {b : Byte} {s t : State} (h : passByte b s = .ok t) (hw : s.cfg.wf = true) (hinv : s.Inv)
    (hl : s.Latched) : t.Latched := by
  rcases passByte_cases h with ⟨-, rfl⟩ | ⟨hs, h⟩ | ⟨hs, h⟩ | ⟨hs, h⟩ | ⟨hs, h⟩
  · exact hl
  · exact stCw_latched h hw hs
  · exact stHdr_latched h hw hs hinv hl
  · exact stData_latched h hw hs hinv hl
  · exact stCrc_latched h hw hs hinv hl

theorem byteStep_latched {b : Byte} {s t : State} (h : byteStep b s = .ok t) (hw : s.cfg.wf = true) (hinv : s.Inv)
    (hl : s.Latched) : t.Latched := by
  have hrun := hinv.run_lt
  rcases byteStep_cases h with ⟨-, -, h⟩ | ⟨-, -, -, rfl⟩ | ⟨-, hne, h⟩ | ⟨-, h⟩
  · exact latched_of_not_decoded (not_decoded_of_readControlWord (ldrSync_atSync h).1)
  · exact hl
  · exact passByte_latched h hw (hinv.setRun (lt_of_le_of_ne hrun hne)) hl
  · exact passByte_latched h hw (hinv.setRun (Nat.zero_lt_of_lt hrun)) hl

/-- Settles O14: the registers' meaning is kept together with the invariant, which says that their bytes stand in the buffer. -/
theorem everyStepKeepsLatchedRegisters : Obligations.EveryStepKeepsLatchedRegisters := by
  intro s t hinv hl h
  have hkept : t.Inv ∧ t.Latched :=
    step_keeps (P := fun s => s.Inv ∧ s.Latched) id (fun hw => ⟨inv_frameReset hw, latched_frameReset _⟩)
      (fun hb hw hP => ⟨byteStep_inv hb hw hP.1, byteStep_latched hb hw hP.1 hP.2⟩) ⟨hinv, hl⟩ h
  exact hkept.2

end Sys2Proof.Machine
end

section
/-! The frame buffer's memory: what the frame reset and the hand-off do to it (R204, R64), that one byte clears it, keeps it
or appends itself (R51, R58), and that every operation keeps its canonical form (log 9). -/

namespace Sys2Proof.Machine

/-! ### Frame reset and hand-off -/

theorem frameReset_eq_cleared (s : State) : frameReset s = s.cleared := rfl

theorem exec_frameReset (s : State) : exec .frameReset s = .next (frameReset s) := rfl

/-- Settles O2. -/
theorem frameResetClearsEveryElement : Obligations.FrameResetClearsEveryElement :=
  fun s => (exec_frameReset s).trans (congrArg _ (frameReset_eq_cleared s))

/-- What the buffer holds is what a read of the whole of it gives (R52). -/
theorem State.Holds.readRange {s : State} {bs : List Byte} (h : s.Holds bs) : s.buf.readRange 0 s.bufLen = some bs :=
  have ⟨hlen, hreads⟩ := h
  Memory.readRange_eq_some.mpr ⟨hlen, fun i hi => (Nat.zero_add i).symm ▸ hreads i hi⟩

theorem dispatchFrame_of_holds {s : State} {frame : List Byte} (h : s.Holds frame) :
    dispatchFrame s = .ok (s.afterDispatch frame) :=
  dispatchFrame_eq_ok.mpr ⟨frame, h.readRange, rfl⟩

/-- Settles O49. -/
theorem dispatchHandsOverTheBufferThenClears : Obligations.DispatchHandsOverTheBufferThenClears :=
  fun _ _ h => finish_eq_next.mpr (dispatchFrame_of_holds h)

/-! ### One byte -/

/-- What an operation with the input byte `b` can do to the buffer (R51, R58). -/
inductive BufferEffect (b : Byte) (s t : State) : Prop where
  | clears (hbuf : t.buf = []) (hlen : t.bufLen = 0)
  | keeps (hbuf : t.buf = s.buf) (hlen : t.bufLen = s.bufLen)
  | appends (hbuf : t.buf = s.buf.write s.bufLen b) (hlen : t.bufLen = s.bufLen + 1)

/-- Only the buffer before has a part in the effect: not the leader count, not the waiting inputs. -/
theorem BufferEffect.of_eq {b : Byte} {s s' t : State} (h : BufferEffect b s' t) (hbuf : s'.buf = s.buf)
    (hlen : s'.bufLen = s.bufLen) : BufferEffect b s t := by
  cases h with
  | clears tbuf tlen => exact .clears tbuf tlen
  | keeps tbuf tlen => exact .keeps (tbuf.trans hbuf) (tlen.trans hlen)
  | appends tbuf tlen => exact .appends (by rw [tbuf, hbuf, hlen]) (by rw [tlen, hlen])

/-- The effect in terms of single reads. -/
theorem BufferEffect.reads {b : Byte} {s t : State} (h : BufferEffect b s t) :
    (t.buf = [] ∧ t.bufLen = 0)
    ∨ (t.bufLen = s.bufLen ∧ ∀ a, t.buf.read a = s.buf.read a)
    ∨ (t.bufLen = s.bufLen + 1 ∧ t.buf.read s.bufLen = some b ∧ ∀ a, a ≠ s.bufLen → t.buf.read a = s.buf.read a) := by
  cases h with
  | clears hbuf hlen => exact .inl ⟨hbuf, hlen⟩
  | keeps hbuf hlen => exact .inr (.inl ⟨hlen, fun a => by rw [hbuf]⟩)
  | appends hbuf hlen =>
    rw [hbuf]
    exact .inr (.inr ⟨hlen, Memory.read_write_same _ _ _, fun a ha => Memory.read_write_other _ _ ha⟩)

theorem BufferEffect.preserves_wf {b : Byte} {s t : State} (h : BufferEffect b s t) (hs : s.buf.wf) : t.buf.wf := by
  cases h with
  | clears hbuf => rw [hbuf]; exact Memory.wf_nil
  | keeps hbuf => rw [hbuf]; exact hs
  | appends hbuf => rw [hbuf]; exact Memory.wf_write hs _ _

/-- A completion test clears the buffer or keeps it. -/
theorem Completion.buffer {s t : State} (h : Completion s t) :
    (t.buf = [] ∧ t.bufLen = 0) ∨ (t.buf = s.buf ∧ t.bufLen = s.bufLen) := by
  cases h with
  | goesOn st => exact .inr ⟨rfl, rfl⟩
  | ends e => exact .inl ⟨rfl, rfl⟩

theorem Completion.preserves_wf {s t : State} (h : Completion s t) (hs : s.buf.wf) : t.buf.wf := by
  rcases h.buffer with ⟨hbuf, -⟩ | ⟨hbuf, -⟩
  · rw [hbuf]; exact Memory.wf_nil
  · rw [hbuf]; exact hs

/-- The byte is appended, then a completion test runs. -/
theorem BufferEffect.of_append {b : Byte} {s u t : State} (hbuf : u.buf = s.buf.write s.bufLen b)
    (hlen : u.bufLen = s.bufLen + 1) (h : Completion u t) : BufferEffect b s t := by
  rcases h.buffer with ⟨tbuf, tlen⟩ | ⟨tbuf, tlen⟩
  · exact .clears tbuf tlen
  · exact .appends (tbuf.trans hbuf) (tlen.trans hlen)

theorem stCw_bufferEffect {b : Byte} {s t : State} (h : stCw b s = .ok t) : BufferEffect b s t := by
  rcases stCw_eq_ok.mp h with ⟨-, rfl⟩ | ⟨-, -, ⟨-, rfl⟩ | ⟨-, h⟩⟩
  · exact .clears rfl rfl
  · exact .appends rfl rfl
  · obtain ⟨_, -, h⟩ := cwComplete_eq_ok.mp h
    exact .of_append rfl rfl (hdrDone_completion h)

/-- The latch reads the buffer and does not write it (R124). -/
theorem dlenLatch_buffer {s t : State} (h : dlenLatch s = .ok t) : t.buf = s.buf ∧ t.bufLen = s.bufLen := by
  rcases dlenLatch_eq_ok.mp h with ⟨-, -, _, -, rfl⟩ | ⟨-, rfl⟩ <;> exact ⟨rfl, rfl⟩

theorem stHdr_bufferEffect {b : Byte} {s t : State} (h : stHdr b s = .ok t) : BufferEffect b s t := by
  rcases stHdr_eq_ok.mp h with ⟨-, rfl⟩ | ⟨-, -, u, hu, h⟩
  · exact .clears rfl rfl
  · obtain ⟨hbuf, hlen⟩ := dlenLatch_buffer hu
    exact .of_append hbuf hlen (hdrDone_completion h)

theorem stData_bufferEffect {b : Byte} {s t : State} (h : stData b s = .ok t) : BufferEffect b s t := by
  obtain ⟨-, h⟩ := stData_eq_ok.mp h
  exact .of_append rfl rfl (dataDone_completion h)

theorem stCrc_bufferEffect {b : Byte} {s t : State} (h : stCrc b s = .ok t) : BufferEffect b s t := by
  obtain ⟨-, ⟨-, rfl⟩ | ⟨-, h⟩⟩ := stCrc_eq_ok.mp h
  · exact .appends rfl rfl
  · exact .of_append rfl rfl (crcComplete_completion h)

theorem passByte_bufferEffect {b : Byte} {s t : State} (h : passByte b s = .ok t) : BufferEffect b s t := by
  rcases passByte_cases h with ⟨-, rfl⟩ | ⟨-, h⟩ | ⟨-, h⟩ | ⟨-, h⟩ | ⟨-, h⟩
  · exact .keeps rfl rfl
  · exact stCw_bufferEffect h
  · exact stHdr_bufferEffect h
  · exact stData_bufferEffect h
  · exact stCrc_bufferEffect h

theorem passByte_run_bufferEffect {b : Byte} {s t : State} {r : Nat} (h : passByte b { s with run := r } = .ok t) :
    BufferEffect b s t := (passByte_bufferEffect h).of_eq rfl rfl

theorem ldrSync_bufferEffect {b : Byte} {s t : State} (h : ldrSync b s = .ok t) : BufferEffect b s t :=
  have ⟨_, _, hbuf, hlen, _⟩ := ldrSync_atSync h
  .clears hbuf hlen

theorem byteStep_bufferEffect {b : Byte} {s t : State} (h : byteStep b s = .ok t) : BufferEffect b s t := by
  rcases byteStep_cases h with ⟨-, -, h⟩ | ⟨-, -, -, rfl⟩ | ⟨-, -, h⟩ | ⟨-, h⟩
  · exact ldrSync_bufferEffect h
  · exact .keeps rfl rfl
  · exact passByte_run_bufferEffect h
  · exact passByte_run_bufferEffect h

/-- A step that takes a byte is that byte's step (R132). -/
theorem byteStep_of_step {b : Byte} {rest : List Input} {s t : State} (hi : s.input = .byte b :: rest)
    (h : step s = .next t) : byteStep b { s with input := rest } = .ok t := by
  obtain ⟨hw, -⟩ := step_cases h
  exact finish_eq_next.mp (step_byte hw hi ▸ h)

/-- Settles O19. -/
theorem aByteClearsKeepsOrAppends : Obligations.AByteClearsKeepsOrAppends :=
  fun s _ _ _ hi h => ((byteStep_bufferEffect (byteStep_of_step hi h)).of_eq (s := s) rfl rfl).reads

/-! ### The canonical form (log 9) -/

theorem ingest_preserves_wf {bs : List Byte} {s t : State} (h : ingest bs s = .ok t) : s.buf.wf → t.buf.wf :=
  ingest_induction (R := fun s t => s.buf.wf → t.buf.wf) (fun _ => id)
    (fun hb ih hs => ih ((byteStep_bufferEffect hb).preserves_wf hs)) h

/-- A micro-operation that hands a value over writes no cell (R150, R170, R185, log 5). -/
theorem handOver_buf {α : Type} {x : Res α} {out : α → MicroOut} {s t : State}
    (h : finish (x >>= fun a => .ok { s with ret := some (out a) }) = .next t) : t.buf = s.buf := by
  obtain ⟨a, -, ha⟩ := res_bind_eq_ok.mp (finish_eq_next.mp h)
  rw [ok_eq_ok.mp ha]

/-- Settles O18: a byte's operation by its effect on the buffer, a micro-operation by its completion, a chunk byte by byte. -/
theorem everyInstructionKeepsMemoryCanonical : Obligations.EveryInstructionKeepsMemoryCanonical := by
  intro i s t hs h
  cases i with
  | ldrSync b => exact (ldrSync_bufferEffect (b := b) (finish_eq_next.mp h)).preserves_wf hs
  | ldrPass b => exact (passByte_run_bufferEffect (finish_eq_next.mp h)).preserves_wf hs
  | escDrop b => rw [ok_eq_ok.mp (finish_eq_next.mp h)]; exact hs
  | escPass b => exact (passByte_run_bufferEffect (finish_eq_next.mp h)).preserves_wf hs
  | litPass b => exact (passByte_run_bufferEffect (finish_eq_next.mp h)).preserves_wf hs
  | stFind b => rw [(stFind_eq_ok (b := b)).mp (finish_eq_next.mp h)]; exact hs
  | stCw b => exact (stCw_bufferEffect (finish_eq_next.mp h)).preserves_wf hs
  | stHdr b => exact (stHdr_bufferEffect (finish_eq_next.mp h)).preserves_wf hs
  | stData b => exact (stData_bufferEffect (finish_eq_next.mp h)).preserves_wf hs
  | stCrc b => exact (stCrc_bufferEffect (finish_eq_next.mp h)).preserves_wf hs
  | hamdec => rw [handOver_buf (x := hamdecBuf s) (out := .flags) h]; exact hs
  | hdrlen => rw [handOver_buf (x := .ok (hdrlen s.cfg s.flags)) (out := .length) h]; exact hs
  | fldoff m => rw [handOver_buf (x := .ok (fldoff s.cfg s.flags m)) (out := .offset) h]; exact hs
  | dlenLatch =>
    obtain ⟨hbuf, -⟩ := dlenLatch_buffer (finish_eq_next.mp h)
    rw [hbuf]; exact hs
  | hdrDone => exact (hdrDone_completion (finish_eq_next.mp h)).preserves_wf hs
  | dataDone => exact (dataDone_completion (finish_eq_next.mp h)).preserves_wf hs
  | crcchk => rw [handOver_buf (x := crcMatches s) (out := .verdict) h]; exact hs
  | dispatch => exact (dispatchFrame_completion (finish_eq_next.mp h)).preserves_wf hs
  | discard c => rw [ok_eq_ok.mp (finish_eq_next.mp h)]; exact Memory.wf_nil
  | frameReset => rw [ok_eq_ok.mp (finish_eq_next.mp h)]; exact Memory.wf_nil
  | ingest bs => exact ingest_preserves_wf (finish_eq_next.mp h) hs
  | hwReset => rw [ok_eq_ok.mp (finish_eq_next.mp h)]; exact Memory.wf_nil

end Sys2Proof.Machine
end

section
/-! Progress: from a good state no byte, no chunk and no step stops (R52, R57, R83). The idea: the buffer is packed, so that a
read of what is counted succeeds, and there is room for one append. Then that cutting a chunk changes nothing (R63). -/

namespace Sys2Proof.Machine

/-! ### A packed buffer -/

/-- The buffer's cells are exactly the indices below `buf_len` (R20, R51). -/
def State.Packed (s : State) : Prop := s.buf.map (·.1) = List.range s.bufLen

theorem State.Inv.packed {s : State} (h : s.Inv) : s.Packed := by
  obtain ⟨hcells, -⟩ := h
  exact hcells

theorem State.Packed.append {s : State} (h : s.Packed) (b : Byte) : (s.appended b).Packed :=
  Memory.addresses_write_range b h

/-- A read within `buf_len` succeeds (R52). -/
theorem State.Packed.readRange {s : State} (h : s.Packed) {a n : Nat} (hle : a + n ≤ s.bufLen) :
    ∃ bs, s.buf.readRange a n = some bs := ⟨_, Memory.readRange_of_range h hle⟩

/-! ### Micro-operations complete -/

theorem dispatchFrame_completes {s : State} (h : s.Packed) : ∃ t, dispatchFrame s = .ok t := by
  obtain ⟨frame, hframe⟩ := h.readRange (Nat.zero_add s.bufLen).le
  exact ⟨_, dispatchFrame_eq_ok.mpr ⟨frame, hframe, rfl⟩⟩

theorem dataDone_completes {s : State} (h : s.Packed) : ∃ t, dataDone s = .ok t := by
  unfold dataDone
  split_ifs
  · exact ⟨_, rfl⟩
  · exact dispatchFrame_completes h
  · exact ⟨_, rfl⟩

theorem hdrDone_completes {s : State} (h : s.Packed) : ∃ t, hdrDone s = .ok t := by
  unfold hdrDone
  split_ifs
  · exact dataDone_completes (s := { s with state := .readData }) h
  · exact ⟨_, rfl⟩
  · exact dispatchFrame_completes h
  · exact ⟨_, rfl⟩

/-- The latch reads the last bytes counted, and what is counted is in the buffer (R124). -/
theorem dlenLatch_completes {s : State} (h : s.Packed) (hidx : s.hdrIdx ≤ s.bufLen) : ∃ t, dlenLatch s = .ok t := by
  by_cases hat : s.hasData = true ∧ s.hdrIdx = fldoff s.cfg s.flags s.cfg.fData + s.cfg.dlenWidth
  · obtain ⟨hhas, hend⟩ := hat
    obtain ⟨bs, hbs⟩ := h.readRange (hend ▸ hidx)
    exact ⟨_, dlenLatch_eq_ok.mpr (.inl ⟨hhas, hend, bs, hbs, rfl⟩)⟩
  · exact ⟨s, dlenLatch_eq_ok.mpr (.inr ⟨hat, rfl⟩)⟩

theorem cwComplete_completes {s : State} (h : s.Packed) (hle : s.cfg.cwWidth ≤ s.bufLen) : ∃ t, cwComplete s = .ok t := by
  obtain ⟨cw, hcw⟩ := h.readRange ((Nat.zero_add _).trans_le hle)
  obtain ⟨t, ht⟩ := hdrDone_completes (s := { s with
    flags := hamdec s.cfg (be16 cw), hdrLen := hdrlen s.cfg (hamdec s.cfg (be16 cw)), state := .readHeader }) h
  exact ⟨t, cwComplete_eq_ok.mpr ⟨cw, hcw, ht⟩⟩

theorem crcMatches_completes {s : State} (h : s.Packed) (hle : s.cfg.crcWidth ≤ s.bufLen) :
    ∃ ok, crcMatches s = .ok ok := by
  obtain ⟨region, hregion⟩ := h.readRange ((Nat.zero_add _).trans_le (Nat.sub_le s.bufLen s.cfg.crcWidth))
  obtain ⟨trailer, htrailer⟩ := h.readRange (Nat.sub_add_cancel hle).le
  exact ⟨_, crcMatches_eq_ok.mpr ⟨hle, region, trailer, hregion, htrailer, rfl⟩⟩

theorem crcComplete_completes {s : State} (h : s.Packed) (hle : s.cfg.crcWidth ≤ s.bufLen) :
    ∃ t, crcComplete s = .ok t := by
  obtain ⟨ok, hok⟩ := crcMatches_completes h hle
  cases ok with
  | false => exact ⟨_, crcComplete_eq_ok.mpr (.inr ⟨hok, rfl⟩)⟩
  | true =>
    obtain ⟨t, ht⟩ := dispatchFrame_completes h
    exact ⟨t, crcComplete_eq_ok.mpr (.inl ⟨hok, ht⟩)⟩

/-! ### Byte operations complete where there is room for the byte -/

theorem stCw_completes (b : Byte) {s : State} (h : s.Packed) (hroom : s.bufLen < bufCap s.cfg)
    (hidx : s.hdrIdx = s.bufLen) : ∃ t, stCw b s = .ok t := by
  rcases Nat.lt_or_ge s.hdrIdx s.cfg.maxHdr with hlt | hge
  · by_cases heq : s.hdrIdx + 1 = s.cfg.cwWidth
    · obtain ⟨t, ht⟩ := cwComplete_completes (s := { s.appended b with hdrIdx := s.hdrIdx + 1 }) (h.append b)
        (heq.symm.trans (congrArg (· + 1) hidx)).le
      exact ⟨t, stCw_eq_ok.mpr (.inr ⟨hlt, hroom, .inr ⟨heq, ht⟩⟩)⟩
    · exact ⟨_, stCw_eq_ok.mpr (.inr ⟨hlt, hroom, .inl ⟨heq, rfl⟩⟩)⟩
  · exact ⟨_, stCw_eq_ok.mpr (.inl ⟨hge, rfl⟩)⟩

theorem stHdr_completes (b : Byte) {s : State} (h : s.Packed) (hroom : s.bufLen < bufCap s.cfg)
    (hidx : s.hdrIdx = s.bufLen) : ∃ t, stHdr b s = .ok t := by
  rcases Nat.lt_or_ge s.hdrIdx s.cfg.maxHdr with hlt | hge
  · obtain ⟨u, hu⟩ := dlenLatch_completes (s := { s.appended b with hdrIdx := s.hdrIdx + 1 }) (h.append b)
      (congrArg (· + 1) hidx).le
    have hpacked : u.Packed := by
      obtain ⟨hbuf, hlen⟩ := dlenLatch_buffer hu
      rw [State.Packed, hbuf, hlen]
      exact h.append b
    obtain ⟨t, ht⟩ := hdrDone_completes hpacked
    exact ⟨t, stHdr_eq_ok.mpr (.inr ⟨hlt, hroom, u, hu, ht⟩)⟩
  · exact ⟨_, stHdr_eq_ok.mpr (.inl ⟨hge, rfl⟩)⟩

theorem stData_completes (b : Byte) {s : State} (h : s.Packed) (hroom : s.bufLen < bufCap s.cfg) :
    ∃ t, stData b s = .ok t := by
  obtain ⟨t, ht⟩ := dataDone_completes (s := { s.appended b with dataIdx := s.dataIdx + 1 }) (h.append b)
  exact ⟨t, stData_eq_ok.mpr ⟨hroom, ht⟩⟩

theorem stCrc_completes (b : Byte) {s : State} (h : s.Packed) (hroom : s.bufLen < bufCap s.cfg)
    (hidx : s.crcIdx ≤ s.bufLen) : ∃ t, stCrc b s = .ok t := by
  by_cases heq : s.crcIdx + 1 = s.cfg.crcWidth
  · obtain ⟨t, ht⟩ := crcComplete_completes (s := { s.appended b with crcIdx := s.crcIdx + 1 }) (h.append b)
      (heq.symm.trans_le (Nat.succ_le_succ hidx))
    exact ⟨t, stCrc_eq_ok.mpr ⟨hroom, .inr ⟨heq, ht⟩⟩⟩
  · exact ⟨_, stCrc_eq_ok.mpr ⟨hroom, .inl ⟨heq, rfl⟩⟩⟩

/-- A passed byte, whatever the count it is passed with: each parse state's invariant counts only bytes that the buffer
holds. -/
theorem passByte_run_completes (b : Byte) (r : Nat) {s : State} (hw : s.cfg.wf = true) (hinv : s.Inv) :
    ∃ t, passByte b { s with run := r } = .ok t := by
  have hpacked : State.Packed { s with run := r } := hinv.packed
  obtain ⟨-, hroom⟩ := bufferStaysWithinCapacity s hw hinv
  cases hs : s.state with
  | findStart => simp only [passByte]; exact ⟨_, rfl⟩
  | readControlWord =>
    obtain ⟨-, hidx, -⟩ := (inv_iff_of_readControlWord hs).mp hinv
    simp only [passByte]
    exact stCw_completes b hpacked hroom hidx
  | readHeader =>
    obtain ⟨hh, -⟩ := (inv_iff_of_readHeader hs).mp hinv
    simp only [passByte]
    exact stHdr_completes b hpacked hroom hh.hdrIdx_eq
  | readData => simp only [passByte]; exact stData_completes b hpacked hroom
  | readChecksum =>
    have hchk := (inv_iff_of_readChecksum hs).mp hinv
    simp only [passByte]
    exact stCrc_completes b hpacked hroom (hchk.bufLen_eq ▸ Nat.le_add_left _ _)

theorem byteStep_completes (b : Byte) {s : State} (hw : s.cfg.wf = true) (hinv : s.Inv) : ∃ t, byteStep b s = .ok t := by
  unfold byteStep
  cases filterOp s.cfg s.run b with
  | ldrSync => exact ⟨_, rfl⟩
  | ldrPass => exact passByte_run_completes b (s.run + 1) hw hinv
  | escDrop => exact ⟨_, rfl⟩
  | escPass => exact passByte_run_completes b 0 hw hinv
  | litPass => exact passByte_run_completes b 0 hw hinv

/-- Along a chunk the invariant is carried from byte to byte (R206). -/
theorem ingest_completes (bs : List Byte) {s : State} (hw : s.cfg.wf = true) (hinv : s.Inv) :
    ∃ t, ingest bs s = .ok t := by
  induction bs generalizing s with
  | nil => exact ⟨s, rfl⟩
  | cons b bs ih =>
    obtain ⟨u, hu⟩ := byteStep_completes b hw hinv
    obtain ⟨hcfg, -⟩ := byteStep_extendedBy hu
    obtain ⟨t, ht⟩ := ih (hcfg ▸ hw) (byteStep_inv hu hw hinv)
    exact ⟨t, res_bind_eq_ok.mpr ⟨u, hu, ht⟩⟩

/-! ### The step -/

/-- A step with an input performs the operation that the input selects (R81, R206, R250). -/
theorem step_of_input_eq_cons {s : State} {inp : Input} {rest : List Input} (hw : s.cfg.wf = true)
    (hi : s.input = inp :: rest) : step s = exec (decodePort s.cfg s.run inp) { s with input := rest } := by
  simp only [step, fetch, hw, hi, if_true]

theorem step_completes {s : State} (hw : s.cfg.wf = true) (hinv : s.Inv) : ∃ t, step s = .next t := by
  cases hi : s.input with
  | nil => exact ⟨s, step_of_input_eq_nil hw hi⟩
  | cons inp rest =>
    cases inp with
    | byte b =>
      obtain ⟨t, ht⟩ := byteStep_completes b (s := { s with input := rest }) hw hinv
      exact ⟨t, (step_byte hw hi).trans (finish_eq_next.mpr ht)⟩
    | chunk bs =>
      obtain ⟨t, ht⟩ := ingest_completes bs (s := { s with input := rest }) hw hinv
      exact ⟨t, (step_of_input_eq_cons hw hi).trans (finish_eq_next.mpr ht)⟩
    | reset => exact ⟨_, step_of_input_eq_cons hw hi⟩

theorem step_cfg {s t : State} (h : step s = .next t) : t.cfg = s.cfg := by
  obtain ⟨-, ⟨-, rfl⟩ | ⟨rest, ⟨b, -, h⟩ | ⟨bs, -, h⟩ | ⟨-, rfl⟩⟩⟩ := step_cases h
  · rfl
  · obtain ⟨hcfg, -⟩ := byteStep_extendedBy h
    exact hcfg
  · obtain ⟨hcfg, -⟩ := ingest_extendedBy h
    exact hcfg
  · rfl

/-- Settles O15. -/
theorem noStepStopsFromAGoodState : Obligations.NoStepStopsFromAGoodState := by
  intro s hw hinv
  obtain ⟨t, ht⟩ := step_completes hw hinv
  exact ⟨t, ht, step_cfg ht⟩

/-! ### Chunks -/

/-- The fold over a concatenation is one fold after the other (R206). -/
theorem ingest_append (as bs : List Byte) (s : State) : ingest (as ++ bs) s = ingest as s >>= ingest bs := by
  induction as generalizing s with
  | nil => rfl
  | cons a as ih =>
    simp only [List.cons_append, ingest]
    cases byteStep a s with
    | ok u => exact ih u
    | error f => rfl

theorem exec_ingest (bs : List Byte) (s : State) : exec (.ingest bs) s = finish (ingest bs s) := rfl

/-- Settles O52. -/
theorem chunkingNeverMatters : Obligations.ChunkingNeverMatters := by
  intro as bs s
  refine ⟨rfl, ?_⟩
  simp only [exec_ingest, ingest_append]
  cases ingest as s <;> rfl

end Sys2Proof.Machine
end

section
/-! The operation decode (30_encoding.md): what the filter decode answers for each byte class, what the state-machine decode
answers for each state code, and that the encoder inverts the decoder. -/

namespace Sys2Proof

/-! ### The rows of the filter decode (R81) -/

theorem filterOp_leader_last {c : Cfg} {run : Nat} (h : run + 1 = c.n) : filterOp c run c.leader = .ldrSync :=
  Machine.filterOp_eq_ldrSync.mpr ⟨rfl, h⟩

theorem filterOp_leader {c : Cfg} {run : Nat} (h : run + 1 ≠ c.n) : filterOp c run c.leader = .ldrPass := by
  simp [filterOp, h]

theorem filterOp_esc_last {c : Cfg} {run : Nat} (hne : c.esc ≠ c.leader) (h : run + 1 = c.n) :
    filterOp c run c.esc = .escDrop := by
  simp [filterOp, hne, h]

theorem filterOp_esc {c : Cfg} {run : Nat} (hne : c.esc ≠ c.leader) (h : run + 1 ≠ c.n) :
    filterOp c run c.esc = .escPass := by
  simp [filterOp, hne, h]

theorem filterOp_literal {c : Cfg} {b : Byte} (run : Nat) (hl : b ≠ c.leader) (he : b ≠ c.esc) :
    filterOp c run b = .litPass := by
  simp [filterOp, hl, he]

theorem decode_byte {c : Cfg} {run : Nat} {b : Byte} {op : FilterOp} (h : filterOp c run b = op) :
    decode c (.port run (.byte b)) = .ok (op.instr b) := by
  rw [decode, decodePort, h]

/-- The operation that the filter decode selects has the byte class of its row. -/
theorem filterOp_instr_wf (c : Cfg) (run : Nat) (b : Byte) : ((filterOp c run b).instr b).wf c = true := by
  unfold filterOp
  split_ifs with hsync hleader hdrop hesc
  · exact beq_iff_eq.mpr hsync.1
  · exact beq_iff_eq.mpr hleader
  · exact beq_iff_eq.mpr hdrop.1
  · exact beq_iff_eq.mpr hesc
  · simp [FilterOp.instr, Instr.wf, hleader, hesc]

theorem decodePort_wf (c : Cfg) (run : Nat) (inp : Input) : (decodePort c run inp).wf c = true := by
  cases inp with
  | byte b => exact filterOp_instr_wf c run b
  | chunk bs => rfl
  | reset => rfl

/-- Settles O8. -/
theorem decodedInputIsWellFormed : Obligations.DecodedInputIsWellFormed :=
  fun c run inp => ⟨decodePort c run inp, rfl, decodePort_wf c run inp⟩

/-! ### The state codes (R21, R82) -/

theorem ParseState.ofCode_code (st : ParseState) : ParseState.ofCode st.code = some st := by
  cases st <;> rfl

theorem ParseState.ofCode_reserved : ∀ code : BitVec 3, 5 ≤ code.toNat → ParseState.ofCode code = none := by decide

theorem decode_passed_code (c : Cfg) (st : ParseState) (b : Byte) :
    decode c (.passed st.code b) = .ok (stateInstr st b) := by
  rw [decode, decodePassed, ParseState.ofCode_code]

theorem decode_passed_reserved (c : Cfg) {code : BitVec 3} (b : Byte) (h : 5 ≤ code.toNat) :
    decode c (.passed code b) = .error (.reservedStateCode code) := by
  rw [decode, decodePassed, ParseState.ofCode_reserved code h]

/-! ### The encoder -/

/-- Settles O7: a filter operation's operand is in its row's byte class, and the encoder gives a `run` of that row. -/
theorem decodeOfEncodeIsTheInstruction : Obligations.DecodeOfEncodeIsTheInstruction := by
  intro c i sel hw hi henc
  obtain ⟨hn, -⟩ := Cfg.bounds_of_wf hw
  have hesc := Cfg.esc_ne_leader_of_wf hw
  have hlast : c.n - 1 + 1 = c.n := by omega
  have hfirst : 0 + 1 ≠ c.n := by omega
  cases i with
  | ldrSync b =>
    cases henc
    obtain rfl : b = c.leader := beq_iff_eq.mp hi
    exact decode_byte (filterOp_leader_last hlast)
  | ldrPass b =>
    cases henc
    obtain rfl : b = c.leader := beq_iff_eq.mp hi
    exact decode_byte (filterOp_leader hfirst)
  | escDrop b =>
    cases henc
    obtain rfl : b = c.esc := beq_iff_eq.mp hi
    exact decode_byte (filterOp_esc_last hesc hlast)
  | escPass b =>
    cases henc
    obtain rfl : b = c.esc := beq_iff_eq.mp hi
    exact decode_byte (filterOp_esc hesc hfirst)
  | litPass b =>
    cases henc
    obtain ⟨hnl, hne⟩ : b ≠ c.leader ∧ b ≠ c.esc := by simpa [Instr.wf] using hi
    exact decode_byte (filterOp_literal 0 hnl hne)
  | stFind b => cases henc; exact decode_passed_code c .findStart b
  | stCw b => cases henc; exact decode_passed_code c .readControlWord b
  | stHdr b => cases henc; exact decode_passed_code c .readHeader b
  | stData b => cases henc; exact decode_passed_code c .readData b
  | stCrc b => cases henc; exact decode_passed_code c .readChecksum b
  | ingest bs => cases henc; rfl
  | hwReset => cases henc; rfl
  | _ => cases henc

/-- The micro-operations are called by other operations, and no selector stands for them (R82). -/
theorem encode_eq_none_iff {c : Cfg} {i : Instr} : encode c i = none ↔
    i = .hamdec ∨ i = .hdrlen ∨ (∃ m, i = .fldoff m) ∨ i = .dlenLatch ∨ i = .hdrDone ∨ i = .dataDone
    ∨ i = .crcchk ∨ i = .dispatch ∨ (∃ d, i = .discard d) ∨ i = .frameReset := by
  cases i <;> simp [encode]

namespace Machine

/-! ### What a filter operation does with the byte -/

/-- The state machine on a passed byte is the operation of the state (R82). -/
theorem finish_passByte (b : Byte) (s : State) : finish (passByte b s) = exec (stateInstr s.state b) s := by
  unfold passByte
  cases s.state <;> rfl

theorem exec_ldrPass (b : Byte) (s : State) :
    exec (.ldrPass b) s = exec (stateInstr s.state b) { s with run := s.run + 1 } :=
  finish_passByte b { s with run := s.run + 1 }

theorem exec_escPass (b : Byte) (s : State) : exec (.escPass b) s = exec (stateInstr s.state b) { s with run := 0 } :=
  finish_passByte b { s with run := 0 }

theorem exec_litPass (b : Byte) (s : State) : exec (.litPass b) s = exec (stateInstr s.state b) { s with run := 0 } :=
  finish_passByte b { s with run := 0 }

/-- Settles O5. -/
theorem filterDecodeFollowsTheTable : Obligations.FilterDecodeFollowsTheTable := by
  refine ⟨fun c run b hw hrun => ?_, fun b s => ⟨exec_ldrPass b s, exec_escPass b s, exec_litPass b s⟩,
    fun _ _ _ => ⟨rfl, rfl⟩⟩
  have hesc := Cfg.esc_ne_leader_of_wf hw
  have hlast : run + 1 = c.n ↔ run = c.n - 1 := by omega
  refine ⟨?_, ?_, ?_, ?_, fun hnl hne => decode_byte (filterOp_literal run hnl hne)⟩
  · rintro rfl h
    exact decode_byte (filterOp_leader_last (hlast.mpr h))
  · rintro rfl h
    exact decode_byte (filterOp_leader (fun k => h.ne (hlast.mp k)))
  · rintro rfl h
    exact decode_byte (filterOp_esc_last hesc (hlast.mpr h))
  · rintro rfl h
    exact decode_byte (filterOp_esc hesc (fun k => h (hlast.mp k)))

/-- Settles O6. -/
theorem stateDecodeFollowsTheTable : Obligations.StateDecodeFollowsTheTable := by
  refine ⟨fun c b => ⟨decode_passed_code c .findStart b, decode_passed_code c .readControlWord b,
    decode_passed_code c .readHeader b, decode_passed_code c .readData b, decode_passed_code c .readChecksum b,
    fun _ h => decode_passed_reserved c b h⟩, fun b s i hdec => ?_, fun _ _ => encode_eq_none_iff, fun _ _ => rfl⟩
  rw [decode_passed_code] at hdec
  cases hdec
  exact ⟨exec_ldrPass b s, exec_escPass b s, exec_litPass b s⟩

/-- Settles O9. -/
theorem sampleSelectorsDecode : Obligations.SampleSelectorsDecode := by
  unfold Obligations.SampleSelectorsDecode
  decide

end Machine

end Sys2Proof
end

section
/-! What a handed-over frame is (R80, R202). The idea: say of a frame's bytes alone that they have the shape their own control
word and data-length field ask for (`DecodedShape`), say of a state that its buffer holds a whole frame (`Whole`), and show that
a passed byte hands over from such a state only (`FrameProgress`). -/

namespace Sys2Proof.Machine

/-! ### The data-length field lies inside the header (R173) -/

theorem presentWidth_append (fl : Flags) (fs gs : List Sys2Proof.Field) :
    presentWidth fl (fs ++ gs) = presentWidth fl fs + presentWidth fl gs := by
  induction fs with
  | nil => simp [presentWidth]
  | cons f fs ih => simp only [List.cons_append, presentWidth, ih, Nat.add_assoc]

/-- The table is what stands before the first entry with a mask, that entry, and a rest. -/
theorem exists_fieldsBefore_append {m : Flags} {fs : List Sys2Proof.Field} (h : ∃ f ∈ fs, f.mask = m) :
    ∃ f rest, fs = fieldsBefore m fs ++ f :: rest ∧ f.mask = m := by
  induction fs with
  | nil => simp at h
  | cons g fs ih =>
    by_cases hg : g.mask = m
    · exact ⟨g, fs, by simp [fieldsBefore, hg], hg⟩
    · obtain ⟨f, rest, hfs, hf⟩ := ih (by simpa [hg] using h)
      refine ⟨f, rest, ?_, hf⟩
      have hcons : fieldsBefore m (g :: fs) = g :: fieldsBefore m fs := by simp [fieldsBefore, hg]
      rw [hcons, List.cons_append, ← hfs]

/-- The data-length entry of a legal configuration: 2 bytes wide, first of its mask (R7). -/
theorem exists_dataField {c : Cfg} (hw : c.wf = true) :
    ∃ f rest, c.fields = fieldsBefore c.fData c.fields ++ f :: rest ∧ f.mask = c.fData ∧ f.width = 2 := by
  obtain ⟨hex, hwidth⟩ := Cfg.dataField_of_wf hw
  obtain ⟨f, rest, hfields, hmask⟩ := exists_fieldsBefore_append hex
  have hmem : f ∈ c.fields := by rw [hfields]; simp
  exact ⟨f, rest, hfields, hmask, hwidth f hmem hmask⟩

/-- The offset of a present data-length field (R172). -/
theorem fldoff_fData {c : Cfg} {fl : Flags} (hw : c.wf = true) (h : flagSet fl c.fData = true) :
    fldoff c fl c.fData = 2 + presentWidth fl (fieldsBefore c.fData c.fields) := by
  obtain ⟨hex, -⟩ := Cfg.dataField_of_wf hw
  obtain ⟨hcw, -⟩ := Cfg.widths_of_wf hw
  have hpres : fieldPresent c fl c.fData = true := by simpa [fieldPresent, h] using hex
  rw [fldoff, if_pos hpres, hcw]

theorem fldoff_fData_add_two_le_hdrlen {c : Cfg} {fl : Flags} (hw : c.wf = true) (h : flagSet fl c.fData = true) :
    fldoff c fl c.fData + 2 ≤ hdrlen c fl := by
  obtain ⟨f, rest, hfields, hmask, hwidth⟩ := exists_dataField hw
  obtain ⟨hcw, -⟩ := Cfg.widths_of_wf hw
  have hsum : presentWidth fl c.fields
      = presentWidth fl (fieldsBefore c.fData c.fields) + (2 + presentWidth fl rest) := by
    conv_lhs => rw [hfields]
    rw [presentWidth_append, presentWidth, hmask, h, if_pos rfl, hwidth]
  rw [fldoff_fData hw h, hdrlen, hcw, hsum]
  omega

theorem two_le_hdrlen {c : Cfg} (hw : c.wf = true) (fl : Flags) : 2 ≤ hdrlen c fl := by
  obtain ⟨hcw, -⟩ := Cfg.widths_of_wf hw
  rw [hdrlen, hcw]
  exact Nat.le_add_right _ _

/-! ### The bytes the buffer holds -/

theorem holds_iff_readRange {s : State} {bs : List Byte} : s.Holds bs ↔ s.buf.readRange 0 s.bufLen = some bs := by
  simp only [Memory.readRange_eq_some, Nat.zero_add]

/-- Reads of a buffer that holds `bs` are slices of `bs` (R52). -/
theorem State.Holds.eq_of_readRange {s : State} {bs part : List Byte} {a n : Nat} (h : s.Holds bs)
    (hle : a + n ≤ s.bufLen) (hr : s.buf.readRange a n = some part) : part = (bs.drop a).take n := by
  obtain ⟨hlen, hreads⟩ := h
  obtain ⟨hplen, hpreads⟩ := Memory.readRange_eq_some.mp hr
  refine List.ext_getElem? fun i => ?_
  rcases Nat.lt_or_ge i n with hi | hi
  · rw [← hpreads i hi, hreads (a + i) (by omega), List.getElem?_take_of_lt hi, List.getElem?_drop]
  · rw [List.getElem?_eq_none (by omega), List.getElem?_eq_none (by simp; omega)]

theorem State.Holds.append {s : State} {bs : List Byte} (h : s.Holds bs) (b : Byte) : (s.appended b).Holds (bs ++ [b]) := by
  obtain ⟨hlen, hreads⟩ := h
  refine ⟨by simp [State.appended, hlen], fun i hi => ?_⟩
  rcases Nat.lt_succ_iff_lt_or_eq.mp hi with hlt | rfl
  · rw [List.getElem?_append_left (hlen ▸ hlt), ← hreads i hlt]
    exact Memory.read_write_other _ _ hlt.ne
  · rw [← hlen, List.getElem?_concat_length, hlen]
    exact Memory.read_write_same _ _ _

/-! ### The shape of a frame -/

/-- `frame` is as long as its own control word and data-length field say, and `fl`, `hl`, `dl` are what they decode to (R80,
R202). -/
structure DecodedShape (c : Cfg) (frame : List Byte) (fl : Flags) (hl : Nat) (dl : Word16) : Prop where
  flags_eq : fl = hamdec c (be16 (frame.take 2))
  hdrLen_eq : hl = hdrlen c fl
  le_maxHdr : hl ≤ c.maxHdr
  dataLen_zero : flagSet fl c.fData = false → dl = 0
  dataLen_eq : flagSet fl c.fData = true → dl = be16 ((frame.drop (fldoff c fl c.fData)).take 2)
  length_eq : frame.length = hl + (if flagSet fl c.fData then dl.toNat else 0) + (if flagSet fl c.fCrc then 4 else 0)

/-- The buffer holds a whole frame: header, data and trailer are all there. -/
structure State.Whole (s : State) : Prop where
  resolved : s.Resolved
  backed : s.BufferBacked
  hdrIdx_eq : s.hdrIdx = s.hdrLen
  le_maxHdr : s.hdrIdx ≤ s.cfg.maxHdr
  bufLen_eq : s.bufLen = s.hdrLen + s.dataLen.toNat + (if s.hasCrc then 4 else 0)

theorem State.Whole.decodedShape {s : State} {frame : List Byte} (h : s.Whole) (hw : s.cfg.wf = true)
    (hf : s.Holds frame) : DecodedShape s.cfg frame s.flags s.hdrLen s.dataLen := by
  obtain ⟨⟨hhl, hnone⟩, ⟨⟨cw, hcw, hfl⟩, hdata⟩, hidx, hmax, hlen⟩ := h
  have htwo := two_le_hdrlen hw s.flags
  have hle : s.hdrLen ≤ s.bufLen := by omega
  refine ⟨?_, hhl, hidx ▸ hmax, hnone, fun hhas => ?_, ?_⟩
  · rw [hfl, hf.eq_of_readRange (by omega) hcw, List.drop_zero]
  · have hin := fldoff_fData_add_two_le_hdrlen hw hhas
    obtain ⟨bs, hbs, hdl⟩ := hdata hhas (by omega)
    rw [hdl, hf.eq_of_readRange (by omega) hbs]
  · have hdl : s.dataLen.toNat = if flagSet s.flags s.cfg.fData then s.dataLen.toNat else 0 := by
      split
      · rfl
      · next hno => rw [hnone (eq_false_of_ne_true hno)]; rfl
    obtain ⟨hframe, -⟩ := hf
    rw [hframe, hlen, ← hdl]
    rfl

/-! ### What a byte of a frame can do -/

/-- `t` differs from `s` at most in the registers of the frame being taken: the buffer and the count are those of `s`, and a
frame reset would leave the same of both. -/
structure State.SameBytes (s t : State) : Prop where
  frameReset_eq : frameReset t = frameReset s
  run_eq : t.run = s.run
  buf_eq : t.buf = s.buf
  bufLen_eq : t.bufLen = s.bufLen

theorem State.SameBytes.refl (s : State) : s.SameBytes s := ⟨rfl, rfl, rfl, rfl⟩

theorem State.SameBytes.trans {s t u : State} (h : s.SameBytes t) (k : t.SameBytes u) : s.SameBytes u :=
  ⟨k.frameReset_eq.trans h.frameReset_eq, k.run_eq.trans h.run_eq, k.buf_eq.trans h.buf_eq, k.bufLen_eq.trans h.bufLen_eq⟩

theorem State.SameBytes.cfg_eq {s t : State} (h : s.SameBytes t) : t.cfg = s.cfg := by
  simpa using congrArg State.cfg h.frameReset_eq

theorem State.SameBytes.events_eq {s t : State} (h : s.SameBytes t) : t.events = s.events := by
  simpa using congrArg State.events h.frameReset_eq

theorem State.SameBytes.holds {s t : State} {bs : List Byte} (h : s.SameBytes t) (hs : s.Holds bs) : t.Holds bs := by
  rw [holds_iff_readRange, h.buf_eq, h.bufLen_eq]
  exact hs.readRange

/-- How the work on a byte of a frame can end, from the state `s` in which the byte stands in the buffer: the frame goes on, or
it is whole and is handed over or discarded for its checksum. -/
inductive FrameProgress (s : State) : State → Prop where
  | goesOn {t : State} (hsame : s.SameBytes t) (hframe : t.state ≠ .findStart) : FrameProgress s t
  | handsOver {u t : State} (hsame : s.SameBytes u) (hwhole : u.Whole) (h : dispatchFrame u = .ok t) : FrameProgress s t
  | mismatches {u : State} (hsame : s.SameBytes u) (hwhole : u.Whole) (hcrc : u.hasCrc = true)
      (h : crcMatches u = .ok false) : FrameProgress s (discardFrame .crcMismatch u)

theorem FrameProgress.of_sameBytes {s u t : State} (h : FrameProgress u t) (hsame : s.SameBytes u) : FrameProgress s t := by
  cases h with
  | goesOn h hframe => exact .goesOn (hsame.trans h) hframe
  | handsOver h hwhole ht => exact .handsOver (hsame.trans h) hwhole ht
  | mismatches h hwhole hcrc hno => exact .mismatches (hsame.trans h) hwhole hcrc hno

theorem dataDone_progress {s t : State} (h : dataDone s = .ok t) (hs : s.state ≠ .findStart) (hd : s.AtData)
    (hb : s.BufferBacked) : FrameProgress s t := by
  rcases dataDone_eq_ok.mp h with ⟨-, rfl⟩ | ⟨-, -, rfl⟩ | ⟨heq, hno, h⟩
  · exact .goesOn (.refl _) hs
  · exact .goesOn ⟨rfl, rfl, rfl, rfl⟩ nofun
  · exact .handsOver (.refl s) ⟨hd.resolved, hb, hd.hdrIdx_eq, hd.le_maxHdr, by simp [hno, hd.bufLen_eq, heq]⟩ h

theorem hdrDone_progress {s t : State} (h : hdrDone s = .ok t) (hs : s.state ≠ .findStart) (hh : s.AtHeader)
    (hb : s.BufferBacked) : FrameProgress s t := by
  have hlen := hh.hdrIdx_eq
  have hidx := hh.dataIdx_eq
  rcases hdrDone_eq_ok.mp h with ⟨-, rfl⟩ | ⟨heq, hhas, h⟩ | ⟨-, -, -, rfl⟩ | ⟨heq, hhas, hno, h⟩
  · exact .goesOn (.refl _) hs
  · have hlen' : s.bufLen = s.hdrLen + s.dataIdx := by omega
    have hd : State.AtData { s with state := .readData } :=
      ⟨hh.sound, hh.resolved, hhas, heq, hh.le_maxHdr, hidx.trans_le (Nat.zero_le _), hlen', hh.crcIdx_eq⟩
    exact (dataDone_progress h nofun hd hb).of_sameBytes ⟨rfl, rfl, rfl, rfl⟩
  · exact .goesOn ⟨rfl, rfl, rfl, rfl⟩ nofun
  · have hdl : s.dataLen.toNat = 0 := by simp [hh.resolved.2 hhas]
    have hlen' : s.bufLen = s.hdrLen + s.dataLen.toNat + (if s.hasCrc then 4 else 0) := by simp [hno]; omega
    exact .handsOver (.refl s) ⟨hh.resolved, hb, heq, hh.le_maxHdr, hlen'⟩ h

theorem crcComplete_progress {s t : State} (h : crcComplete s = .ok t) (hwhole : s.Whole) (hcrc : s.hasCrc = true) :
    FrameProgress s t := by
  rcases crcComplete_eq_ok.mp h with ⟨-, h⟩ | ⟨hno, rfl⟩
  · exact .handsOver (.refl s) hwhole h
  · exact .mismatches (.refl s) hwhole hcrc hno

/-- The second control-word byte: a header of the control word alone may be complete at once (R122). -/
theorem cwComplete_progress {s t : State} (h : cwComplete s = .ok t) (hw : s.cfg.wf = true) (hsound : s.Sound)
    (hidx : s.hdrIdx = 2) (hlen : s.bufLen = 2) (hdata : s.dataIdx = 0) (hcrc : s.crcIdx = 0) (hdl : s.dataLen = 0) :
    FrameProgress s t := by
  obtain ⟨cw, hread, h⟩ := cwComplete_eq_ok.mp h
  obtain ⟨-, hmax, -⟩ := Cfg.bounds_of_wf hw
  obtain ⟨hcw, -⟩ := Cfg.widths_of_wf hw
  obtain ⟨hcells, hrun, -⟩ := hsound
  rw [hcw] at hread
  refine (hdrDone_progress h nofun ⟨⟨hcells, hrun, hamdec_toNat_lt hw _⟩, ⟨rfl, fun _ => hdl⟩, hidx.ge,
    hidx.trans hlen.symm, hidx.trans_le hmax, hidx.trans_le (two_le_hdrlen hw _), hdata, hcrc⟩
    ⟨⟨cw, hread, rfl⟩, fun hhas hle => ?_⟩).of_sameBytes ⟨rfl, rfl, rfl, rfl⟩
  have htwo := two_le_fldoff_fData hw hhas
  dsimp only at htwo hle
  omega

theorem stCw_progress {b : Byte} {s t : State} (h : stCw b s = .ok t) (hw : s.cfg.wf = true)
    (hs : s.state = .readControlWord) (hinv : s.Inv) : FrameProgress (s.appended b) t := by
  obtain ⟨hsound, hidx, hlen, hdata, hcrc, -, -, hdl⟩ := (inv_iff_of_readControlWord hs).mp hinv
  obtain ⟨hcw, -⟩ := Cfg.widths_of_wf hw
  obtain ⟨-, hmax, -⟩ := Cfg.bounds_of_wf hw
  rcases stCw_eq_ok.mp h with ⟨hge, -⟩ | ⟨-, -, ⟨-, rfl⟩ | ⟨heq, h⟩⟩
  · omega
  · exact .goesOn ⟨rfl, rfl, rfl, rfl⟩ (by simp [hs])
  · have htwo : s.hdrIdx + 1 = 2 := heq.trans hcw
    exact (cwComplete_progress h hw (hsound.append b) htwo (hidx ▸ htwo) hdata hcrc hdl).of_sameBytes ⟨rfl, rfl, rfl, rfl⟩

theorem dlenLatch_sameBytes {s u : State} (h : dlenLatch s = .ok u) : s.SameBytes u := by
  rcases dlenLatch_eq_ok.mp h with ⟨-, -, bytes, -, rfl⟩ | ⟨-, rfl⟩
  · exact ⟨rfl, rfl, rfl, rfl⟩
  · exact .refl _

/-- A header byte: it trips the bound, which a longer header alone can do, or the frame makes progress (R123, R222). -/
theorem stHdr_progress {b : Byte} {s t : State} (h : stHdr b s = .ok t) (hw : s.cfg.wf = true)
    (hs : s.state = .readHeader) (hinv : s.Inv) (hl : s.Latched) :
    (s.cfg.maxHdr < s.hdrLen ∧ t = discardFrame .hdrBound s) ∨ FrameProgress (s.appended b) t := by
  obtain ⟨hh, hne⟩ := (inv_iff_of_readHeader hs).mp hinv
  rcases stHdr_eq_ok.mp h with ⟨hge, rfl⟩ | ⟨hlt, -, u, hu, h⟩
  · exact .inl ⟨lt_of_le_of_lt hge (lt_of_le_of_ne hh.le_hdrLen hne), rfl⟩
  · obtain ⟨hhu, hstate, -⟩ := dlenLatch_atHeader hu (hh.append hne hlt b)
    have hbu : u.BufferBacked :=
      dlenLatch_bufferBacked (s := s.appended b) hu hw (bufferBacked_appended hw hinv hl (.inl hs) b)
    have hframe : u.state ≠ .findStart := by rw [hstate]; exact hs ▸ nofun
    have hsame : (s.appended b).SameBytes u :=
      .trans (t := { s.appended b with hdrIdx := s.hdrIdx + 1 }) ⟨rfl, rfl, rfl, rfl⟩ (dlenLatch_sameBytes hu)
    exact .inr ((hdrDone_progress h hframe hhu hbu).of_sameBytes hsame)

theorem stData_progress {b : Byte} {s t : State} (h : stData b s = .ok t) (hw : s.cfg.wf = true)
    (hs : s.state = .readData) (hinv : s.Inv) (hl : s.Latched) : FrameProgress (s.appended b) t := by
  obtain ⟨⟨hsound, hres, hhas, hhdr, hmax, hle, hlen, hcrc⟩, hne⟩ := (inv_iff_of_readData hs).mp hinv
  obtain ⟨-, h⟩ := stData_eq_ok.mp h
  have hd : State.AtData { s.appended b with dataIdx := s.dataIdx + 1 } :=
    ⟨hsound.append b, hres, hhas, hhdr, hmax, lt_of_le_of_ne hle hne, congrArg (· + 1) hlen, hcrc⟩
  have hframe : s.state ≠ .findStart := hs ▸ nofun
  exact (dataDone_progress h hframe hd (bufferBacked_appended hw hinv hl (.inr (.inl hs)) b)).of_sameBytes
    ⟨rfl, rfl, rfl, rfl⟩

theorem stCrc_progress {b : Byte} {s t : State} (h : stCrc b s = .ok t) (hw : s.cfg.wf = true)
    (hs : s.state = .readChecksum) (hinv : s.Inv) (hl : s.Latched) : FrameProgress (s.appended b) t := by
  obtain ⟨-, hres, hhas, hhdr, hmax, -, -, hlen⟩ := (inv_iff_of_readChecksum hs).mp hinv
  obtain ⟨-, -, hwidth⟩ := Cfg.widths_of_wf hw
  obtain ⟨-, ⟨-, rfl⟩ | ⟨heq, h⟩⟩ := stCrc_eq_ok.mp h
  · exact .goesOn ⟨rfl, rfl, rfl, rfl⟩ (by simp [hs])
  · have hlen' : s.bufLen + 1 = s.hdrLen + s.dataLen.toNat + (if s.hasCrc then 4 else 0) := by simp [hhas]; omega
    have hwhole : State.Whole { s.appended b with crcIdx := s.crcIdx + 1 } :=
      ⟨hres, bufferBacked_appended hw hinv hl (.inr (.inr hs)) b, hhdr, hmax, hlen'⟩
    exact (crcComplete_progress h hwhole hhas).of_sameBytes ⟨rfl, rfl, rfl, rfl⟩

/-- A passed byte of a frame, whatever its parse state. -/
theorem passByte_progress {b : Byte} {s t : State} (h : passByte b s = .ok t) (hw : s.cfg.wf = true) (hinv : s.Inv)
    (hl : s.Latched) (hframe : s.state ≠ .findStart) :
    (s.Decoded ∧ s.cfg.maxHdr < s.hdrLen ∧ t = discardFrame .hdrBound s) ∨ FrameProgress (s.appended b) t := by
  rcases passByte_cases h with ⟨hs, -⟩ | ⟨hs, h⟩ | ⟨hs, h⟩ | ⟨hs, h⟩ | ⟨hs, h⟩
  · exact absurd hs hframe
  · exact .inr (stCw_progress h hw hs hinv)
  · exact (stHdr_progress h hw hs hinv hl).imp_left fun hbound => ⟨.inl hs, hbound⟩
  · exact .inr (stData_progress h hw hs hinv hl)
  · exact .inr (stCrc_progress h hw hs hinv hl)

/-! ### The hand-off -/

/-- Outside a frame a passed byte is discarded (R121). -/
theorem passByte_of_findStart {s : State} (b : Byte) (hs : s.state = .findStart) : passByte b s = .ok s := by
  simp only [passByte, hs, stFind]

/-- The last event of `t`, if it is a hand-off that `s` had not made yet, is of a frame of the decoded shape. -/
def State.HandsOverShaped (s t : State) : Prop :=
  ∀ frame fl hl dl, t.events = s.events ++ [.dispatch frame fl hl dl] → DecodedShape s.cfg frame fl hl dl

theorem handsOverShaped_of_events_eq {s t : State} (h : t.events = s.events) : s.HandsOverShaped t := by
  intro frame fl hl dl he
  simp [h] at he

theorem handsOverShaped_of_diag {s t : State} {cause : Cause} {st : ParseState} {len : Nat}
    (h : t.events = s.events ++ [.diag cause st len]) : s.HandsOverShaped t := by
  intro frame fl hl dl he
  simp [h] at he

theorem FrameProgress.handsOverShaped {s t : State} (h : FrameProgress s t) (hw : s.cfg.wf = true) :
    s.HandsOverShaped t := by
  cases h with
  | goesOn hsame _ => exact handsOverShaped_of_events_eq hsame.events_eq
  | @handsOver u _ hsame hwhole hd =>
    intro frame fl hl dl he
    obtain ⟨frame', hread, rfl⟩ := dispatchFrame_eq_ok.mp hd
    have hshape := hwhole.decodedShape (hsame.cfg_eq ▸ hw) (holds_iff_readRange.mpr hread)
    simp only [frameReset_events, emit_events, hsame.events_eq, List.append_cancel_left_eq, List.cons.injEq,
      Event.dispatch.injEq, and_true] at he
    obtain ⟨rfl, rfl, rfl, rfl⟩ := he
    exact hsame.cfg_eq ▸ hshape
  | mismatches hsame _ _ _ => exact handsOverShaped_of_diag (by rw [discardFrame_events, hsame.events_eq])

theorem passByte_handsOverShaped {b : Byte} {s t : State} (h : passByte b s = .ok t) (hw : s.cfg.wf = true)
    (hinv : s.Inv) (hl : s.Latched) : s.HandsOverShaped t := by
  by_cases hs : s.state = .findStart
  · rw [passByte_of_findStart b hs] at h
    exact handsOverShaped_of_events_eq (congrArg State.events (ok_eq_ok.mp h))
  · rcases passByte_progress h hw hinv hl hs with ⟨-, -, rfl⟩ | hp
    · exact handsOverShaped_of_diag (discardFrame_events _ _)
    · exact hp.handsOverShaped (s := s.appended b) hw

theorem byteStep_handsOverShaped {b : Byte} {s t : State} (h : byteStep b s = .ok t) (hw : s.cfg.wf = true)
    (hinv : s.Inv) (hl : s.Latched) : s.HandsOverShaped t := by
  have hrun := hinv.run_lt
  rcases byteStep_cases h with ⟨-, -, h⟩ | ⟨-, -, -, rfl⟩ | ⟨-, hne, h⟩ | ⟨-, h⟩
  · rcases ldrSync_eq_ok.mp h with ⟨-, rfl⟩ | ⟨-, rfl⟩
    · exact handsOverShaped_of_events_eq rfl
    · exact handsOverShaped_of_diag (discardFrame_events .resync s)
  · exact handsOverShaped_of_events_eq rfl
  · exact passByte_handsOverShaped (s := { s with run := s.run + 1 }) h hw (hinv.setRun (lt_of_le_of_ne hrun hne)) hl
  · exact passByte_handsOverShaped (s := { s with run := 0 }) h hw (hinv.setRun (Nat.zero_lt_of_lt hrun)) hl

/-- Settles O51. -/
theorem handedOverFrameHasTheDecodedShape : Obligations.HandedOverFrameHasTheDecodedShape := by
  intro s t b rest frame fl hl dl hw hinv hlat hi h he
  obtain ⟨hfl, hhl, hmax, hzero, hdl, hlen⟩ := byteStep_handsOverShaped (byteStep_of_step hi h) hw hinv hlat _ _ _ _ he
  exact ⟨hfl, hhl, hmax, hzero, hdl, hlen⟩

end Sys2Proof.Machine
end

section
/-! A frame sent as R84 says is handed over exactly (R108, R202). The idea: a frame of the decoded shape has no other frame of the
decoded shape at its front, so a block that has taken a part of it, and whose registers mean what R27 to R29 say, can neither end
the frame before its last byte nor go on after it. The stuffing only steers the leader count, which the state machine does not
read. -/

namespace Sys2Proof.Machine

/-! ### Values as bytes (R9, R84) -/

theorem length_beBytes (width v : Nat) : (beBytes width v).length = width := by
  induction width generalizing v with
  | zero => rfl
  | succ width ih => simp [beBytes, ih]

theorem beNat_concat (bs : List Byte) (b : Byte) : beNat (bs ++ [b]) = beNat bs * 256 + b.toNat := by
  simp [beNat]

/-- The bytes of a value stand for what of it fits them. -/
theorem beNat_beBytes (width v : Nat) : beNat (beBytes width v) = v % 256 ^ width := by
  induction width generalizing v with
  | zero => simp [beBytes, beNat, Nat.mod_one]
  | succ width ih =>
    have hsplit : v % 256 ^ (width + 1) = v % 256 + 256 * (v / 256 % 256 ^ width) := by rw [pow_succ', Nat.mod_mul]
    rw [beBytes, beNat_concat, ih, BitVec.toNat_ofNat, hsplit]
    omega

theorem be16_beBytes (v : Nat) : be16 (beBytes 2 v) = BitVec.ofNat 16 v := by
  apply BitVec.eq_of_toNat_eq
  rw [be16, beNat_beBytes, BitVec.toNat_ofNat, BitVec.toNat_ofNat]
  omega

theorem be32_beBytes (w : Word32) : be32 (beBytes 4 w.toNat) = w := by
  apply BitVec.eq_of_toNat_eq
  have hw : w.toNat < 2 ^ 32 := w.isLt
  rw [be32, beNat_beBytes, BitVec.toNat_ofNat]
  omega

/-! ### What is sent (R84) -/

theorem headerFields_append (c : Cfg) (fl : Flags) (vals : String → Nat) (n : Nat) (fs gs : List Sys2Proof.Field) :
    headerFields c fl vals n (fs ++ gs) = headerFields c fl vals n fs ++ headerFields c fl vals n gs := by
  induction fs with
  | nil => rfl
  | cons f fs ih => simp only [List.cons_append, headerFields, ih, List.append_assoc]

theorem length_headerFields (c : Cfg) (fl : Flags) (vals : String → Nat) (n : Nat) (fs : List Sys2Proof.Field) :
    (headerFields c fl vals n fs).length = presentWidth fl fs := by
  induction fs with
  | nil => rfl
  | cons f fs ih =>
    rw [headerFields, presentWidth, List.length_append, ih]
    split
    · rw [length_beBytes]
    · rfl

theorem length_contentBody {c : Cfg} (hw : c.wf = true) (cw : Word16) (fl : Flags) (vals : String → Nat) (data : List Byte) :
    (contentBody c cw fl vals data).length = hdrlen c fl + (if flagSet fl c.fData then data.length else 0) := by
  obtain ⟨hcw, -⟩ := Cfg.widths_of_wf hw
  rw [contentBody, List.length_append, List.length_append, length_beBytes, length_headerFields, hdrlen, hcw]
  split <;> rfl

theorem length_content {c : Cfg} (hw : c.wf = true) (cw : Word16) (fl : Flags) (vals : String → Nat) (data : List Byte) :
    (content c cw fl vals data).length
      = hdrlen c fl + (if flagSet fl c.fData then data.length else 0) + (if flagSet fl c.fCrc then 4 else 0) := by
  rw [content, List.length_append, length_contentBody hw]
  congr 1
  split
  · rw [length_beBytes]
  · rfl

theorem content_take_two (c : Cfg) (cw : Word16) (fl : Flags) (vals : String → Nat) (data : List Byte) :
    (content c cw fl vals data).take 2 = beBytes 2 cw.toNat := by
  simp only [content, contentBody, List.append_assoc]
  exact List.take_left' (length_beBytes 2 _)

/-- A present data-length field stands where the resolver says, and holds the number of data bytes. -/
theorem content_dataField {c : Cfg} (hw : c.wf = true) (cw : Word16) {fl : Flags} (vals : String → Nat) (data : List Byte)
    (h : flagSet fl c.fData = true) :
    ((content c cw fl vals data).drop (fldoff c fl c.fData)).take 2 = beBytes 2 data.length := by
  obtain ⟨f, rest, hfields, hmask, hwidth⟩ := exists_dataField hw
  have hheader : headerFields c fl vals data.length c.fields
      = headerFields c fl vals data.length (fieldsBefore c.fData c.fields)
        ++ (beBytes 2 data.length ++ headerFields c fl vals data.length rest) := by
    conv_lhs => rw [hfields]
    rw [headerFields_append, headerFields, hmask, h, if_pos rfl, if_pos rfl, hwidth]
  have hbefore : (beBytes 2 cw.toNat ++ headerFields c fl vals data.length (fieldsBefore c.fData c.fields)).length
      = fldoff c fl c.fData := by
    rw [List.length_append, length_beBytes, length_headerFields, fldoff_fData hw h]
  simp only [content, contentBody, hheader, List.append_assoc]
  rw [← List.append_assoc (beBytes 2 cw.toNat), List.drop_left' hbefore]
  exact List.take_left' (length_beBytes 2 _)

/-- A frame that the block hands over when its bytes arrive: of the decoded shape, and with the checksum of what stands before
the trailer if there is one (R80, R188). -/
structure Deliverable (c : Cfg) (frame : List Byte) (fl : Flags) (hl : Nat) (dl : Word16) : Prop
    extends DecodedShape c frame fl hl dl where
  checksum : flagSet fl c.fCrc = true →
    crc32 c (frame.take (frame.length - 4)) = be32 (frame.drop (frame.length - 4))

theorem content_checksum {c : Cfg} {cw : Word16} {fl : Flags} {vals : String → Nat} {data frame : List Byte}
    (hframe : content c cw fl vals data = frame) (h : flagSet fl c.fCrc = true) :
    crc32 c (frame.take (frame.length - 4)) = be32 (frame.drop (frame.length - 4)) := by
  rw [content, if_pos h] at hframe
  have hbody : (contentBody c cw fl vals data).length = frame.length - 4 := by
    rw [← hframe, List.length_append, length_beBytes, Nat.add_sub_cancel]
  rw [← hbody, ← hframe, List.take_left, List.drop_left, be32_beBytes]

theorem content_deliverable {c : Cfg} {cw : Word16} {fl : Flags} (vals : String → Nat) {data : List Byte} (hw : c.wf = true)
    (hcw : hamdec c cw = fl) (hmax : hdrlen c fl ≤ c.maxHdr) (hdata : data.length ≤ 65535) :
    Deliverable c (content c cw fl vals data) fl (hdrlen c fl)
      (if flagSet fl c.fData then BitVec.ofNat 16 data.length else 0) := by
  refine ⟨⟨?_, rfl, hmax, fun hno => by simp [hno], fun hhas => ?_, ?_⟩, content_checksum rfl⟩
  · rw [content_take_two, be16_beBytes, BitVec.ofNat_toNat, BitVec.setWidth_eq, hcw]
  · rw [content_dataField hw cw vals data hhas, be16_beBytes, if_pos hhas]
  · rw [length_content hw]
    split
    · have hfits : data.length % 2 ^ 16 = data.length := Nat.mod_eq_of_lt (by omega)
      rw [BitVec.toNat_ofNat, hfits]
    · rfl

/-! ### A frame at the front of another -/

/-- A slice that ends within the front part is a slice of the front part. -/
theorem slice_append {front : List Byte} {a n : Nat} (h : a + n ≤ front.length) (back : List Byte) :
    ((front ++ back).drop a).take n = (front.drop a).take n := by
  rw [List.drop_append_of_le_length (by omega), List.take_append_of_le_length (by simp; omega)]

theorem DecodedShape.hdrLen_le_length {c : Cfg} {frame : List Byte} {fl : Flags} {hl : Nat} {dl : Word16}
    (h : DecodedShape c frame fl hl dl) : hl ≤ frame.length := by
  rw [h.length_eq, Nat.add_assoc]
  exact Nat.le_add_right _ _

theorem DecodedShape.two_le_hdrLen {c : Cfg} {frame : List Byte} {fl : Flags} {hl : Nat} {dl : Word16} (hw : c.wf = true)
    (h : DecodedShape c frame fl hl dl) : 2 ≤ hl :=
  h.hdrLen_eq ▸ two_le_hdrlen hw fl

/-- A frame at the front of a frame is the whole of it: the two have the control word and the data-length field in common. -/
theorem DecodedShape.eq_of_append {c : Cfg} {front back : List Byte} {fl fl' : Flags} {hl hl' : Nat} {dl dl' : Word16}
    (hw : c.wf = true) (h : DecodedShape c (front ++ back) fl hl dl) (h' : DecodedShape c front fl' hl' dl') :
    back = [] ∧ fl' = fl ∧ hl' = hl ∧ dl' = dl := by
  have htwo := h'.two_le_hdrLen hw
  have hlen' := h'.hdrLen_le_length
  have hfl : fl' = fl := by
    rw [h.flags_eq, h'.flags_eq, List.take_append_of_le_length (by omega)]
  subst hfl
  have hhl : hl' = hl := h'.hdrLen_eq.trans h.hdrLen_eq.symm
  subst hhl
  have hdl : dl' = dl := by
    cases hhas : flagSet fl' c.fData with
    | false => rw [h.dataLen_zero hhas, h'.dataLen_zero hhas]
    | true =>
      have hin := fldoff_fData_add_two_le_hdrlen hw hhas
      rw [← h'.hdrLen_eq] at hin
      rw [h.dataLen_eq hhas, h'.dataLen_eq hhas, slice_append (by omega)]
  subst hdl
  have hlen : (front ++ back).length = front.length := h.length_eq.trans h'.length_eq.symm
  rw [List.length_append] at hlen
  exact ⟨List.eq_nil_of_length_eq_zero (by omega), rfl, rfl, rfl⟩

/-! ### A block that has taken a part of a frame -/

/-- The block is in a frame, the bytes `taken` of it are in the buffer, its registers mean what they should, and a frame reset
would leave `idle`. -/
structure State.Taking (s idle : State) (taken : List Byte) : Prop where
  inv : s.Inv
  latched : s.Latched
  inFrame : s.state ≠ .findStart
  holds : s.Holds taken
  frameReset_eq : frameReset s = idle

theorem State.Taking.cfg_eq {idle s : State} {taken : List Byte} (h : s.Taking idle taken) : s.cfg = idle.cfg := by
  simpa using congrArg State.cfg h.frameReset_eq

/-- Only the bound on the leader count is asked of it (R107). -/
theorem State.Taking.setRun {idle s : State} {taken : List Byte} (h : s.Taking idle taken) {r : Nat} (hr : r < idle.cfg.n) :
    State.Taking { s with run := r } idle taken :=
  ⟨h.inv.setRun (h.cfg_eq ▸ hr), h.latched, h.inFrame, h.holds, h.frameReset_eq⟩

section
variable {idle s : State} {taken rest : List Byte} {fl : Flags} {hl : Nat} {dl : Word16}

/-- Once decoded, the flags and the header length are those of the frame that is arriving. -/
theorem State.Taking.decoded_eq (h : s.Taking idle taken) (hw : idle.cfg.wf = true)
    (hf : DecodedShape idle.cfg (taken ++ rest) fl hl dl) (hd : s.Decoded) : s.flags = fl ∧ s.hdrLen = hl := by
  obtain ⟨hlen, -⟩ := h.holds
  obtain ⟨htwo, -⟩ := header_in_buffer (h.cfg_eq ▸ hw) h.inv hd
  obtain ⟨⟨cw, hcw, hflags⟩, -⟩ := h.latched hd
  have hfl : s.flags = fl := by
    rw [hflags, h.cfg_eq, hf.flags_eq, h.holds.eq_of_readRange (by omega) hcw, List.drop_zero,
      List.take_append_of_le_length (by omega)]
  obtain ⟨hhl, -⟩ := h.inv.resolved hd
  exact ⟨hfl, by rw [hhl, h.cfg_eq, hfl, hf.hdrLen_eq]⟩

/-- Once the header is complete, the data length is that of the frame that is arriving. -/
theorem State.Taking.dataLen_eq (h : s.Taking idle taken) (hw : idle.cfg.wf = true)
    (hf : DecodedShape idle.cfg (taken ++ rest) fl hl dl) (hd : s.Decoded) (hidx : s.hdrIdx = s.hdrLen) :
    s.dataLen = dl := by
  obtain ⟨hfl, hhl⟩ := h.decoded_eq hw hf hd
  obtain ⟨-, hnone⟩ := h.inv.resolved hd
  obtain ⟨-, hdata⟩ := h.latched hd
  have hle := (header_in_buffer (h.cfg_eq ▸ hw) h.inv hd).2
  simp only [State.hasData, h.cfg_eq, hfl] at hnone hdata
  cases hhas : flagSet fl idle.cfg.fData with
  | false => rw [hnone hhas, hf.dataLen_zero hhas]
  | true =>
    have hin := fldoff_fData_add_two_le_hdrlen hw hhas
    rw [← hf.hdrLen_eq, ← hhl, ← hidx] at hin
    obtain ⟨bs, hbs, hdl⟩ := hdata hhas hin
    obtain ⟨hlen, -⟩ := h.holds
    rw [hdl, hf.dataLen_eq hhas, slice_append (by omega), h.holds.eq_of_readRange (by omega) hbs]

/-- A block that is still in the frame has not taken all of it: each parse state waits for bytes that the frame has. -/
theorem State.Taking.rest_ne_nil (h : s.Taking idle taken) (hw : idle.cfg.wf = true)
    (hf : DecodedShape idle.cfg (taken ++ rest) fl hl dl) : rest ≠ [] := by
  rintro rfl
  have hframe := hf.length_eq
  have htwo := hf.two_le_hdrLen hw
  obtain ⟨hlen, -⟩ := h.holds
  rw [List.append_nil, hlen] at hframe
  cases hs : s.state with
  | findStart => exact h.inFrame hs
  | readControlWord =>
    obtain ⟨-, -, hone, -⟩ := (inv_iff_of_readControlWord hs).mp h.inv
    omega
  | readHeader =>
    obtain ⟨-, hhl⟩ := h.decoded_eq hw hf (.inl hs)
    obtain ⟨hh, hne⟩ := (inv_iff_of_readHeader hs).mp h.inv
    have := hh.le_hdrLen
    have := hh.hdrIdx_eq
    omega
  | readData =>
    obtain ⟨hfl, hhl⟩ := h.decoded_eq hw hf (.inr (.inl hs))
    obtain ⟨hdat, hne⟩ := (inv_iff_of_readData hs).mp h.inv
    have hdl := h.dataLen_eq hw hf (.inr (.inl hs)) hdat.hdrIdx_eq
    have hhas : flagSet fl idle.cfg.fData = true := hfl ▸ h.cfg_eq ▸ hdat.hasData
    rw [if_pos hhas, ← hdl] at hframe
    have := hdat.le_dataLen
    have := hdat.bufLen_eq
    omega
  | readChecksum =>
    obtain ⟨hfl, hhl⟩ := h.decoded_eq hw hf (.inr (.inr hs))
    have hchk := (inv_iff_of_readChecksum hs).mp h.inv
    have hdl := h.dataLen_eq hw hf (.inr (.inr hs)) hchk.hdrIdx_eq
    have hcrc : flagSet fl idle.cfg.fCrc = true := hfl ▸ h.cfg_eq ▸ hchk.hasCrc
    have hdata : (if flagSet fl idle.cfg.fData then dl.toNat else 0) = s.dataLen.toNat := by
      split
      · rw [hdl]
      · next hno => rw [hdl, hf.dataLen_zero (eq_false_of_ne_true hno)]; rfl
    rw [if_pos hcrc, hdata] at hframe
    have := hchk.crcIdx_le
    have := hchk.bufLen_eq
    omega

/-- `CRCCHK` on a buffer that holds `frame` (R188). -/
theorem crcMatches_of_holds {frame : List Byte} {ok : Bool} (hw : s.cfg.wf = true) (hf : s.Holds frame)
    (h : crcMatches s = .ok ok) :
    ok = (crc32 s.cfg (frame.take (frame.length - 4)) == be32 (frame.drop (frame.length - 4))) := by
  obtain ⟨-, -, hwidth⟩ := Cfg.widths_of_wf hw
  obtain ⟨hlen, -⟩ := id hf
  obtain ⟨hle, region, trailer, hregion, htrailer, rfl⟩ := crcMatches_eq_ok.mp h
  rw [hwidth] at hle hregion htrailer
  rw [hf.eq_of_readRange (by omega) hregion, hf.eq_of_readRange (by omega) htrailer, List.drop_zero, hlen,
    List.take_of_length_le (l := frame.drop _) (by simp; omega)]

/-- A passed byte of a deliverable frame: the frame goes on, or this was its last byte and it is handed over. -/
theorem State.Taking.passByte_cases {b : Byte} {t : State} (h : s.Taking idle taken) (hw : idle.cfg.wf = true)
    (hf : Deliverable idle.cfg (taken ++ b :: rest) fl hl dl) (ht : passByte b s = .ok t) :
    (rest ≠ [] ∧ t.Taking idle (taken ++ [b]) ∧ t.run = s.run)
    ∨ (rest = [] ∧ t = emit (.dispatch (taken ++ [b]) fl hl dl) idle) := by
  have hws : s.cfg.wf = true := h.cfg_eq ▸ hw
  have hshape : DecodedShape idle.cfg ((taken ++ [b]) ++ rest) fl hl dl := by simpa using hf.toDecodedShape
  -- what a state with all bytes of a frame in the buffer says of the frame that is arriving
  have hends : ∀ u : State, (s.appended b).SameBytes u → u.Whole →
      u.Holds (taken ++ [b]) ∧ u.cfg = idle.cfg ∧ rest = [] ∧ u.flags = fl ∧ u.hdrLen = hl ∧ u.dataLen = dl := by
    intro u hsame hwhole
    have hholds := hsame.holds (h.holds.append b)
    have hcfg : u.cfg = idle.cfg := hsame.cfg_eq.trans h.cfg_eq
    exact ⟨hholds, hcfg, hshape.eq_of_append hw (hcfg ▸ hwhole.decodedShape (hcfg ▸ hw) hholds)⟩
  rcases passByte_progress ht hws h.inv h.latched h.inFrame with ⟨hd, hbound, -⟩ | hp
  · obtain ⟨-, hhl⟩ := h.decoded_eq hw hf.toDecodedShape hd
    have := hf.le_maxHdr
    rw [h.cfg_eq, hhl] at hbound
    omega
  · cases hp with
    | goesOn hsame hframe =>
      have htaking : t.Taking idle (taken ++ [b]) := ⟨passByte_inv ht hws h.inv, passByte_latched ht hws h.inv h.latched,
        hframe, hsame.holds (h.holds.append b), hsame.frameReset_eq.trans h.frameReset_eq⟩
      exact .inl ⟨htaking.rest_ne_nil hw hshape, htaking, hsame.run_eq⟩
    | @handsOver u _ hsame hwhole hd =>
      obtain ⟨hholds, -, hrest, rfl, rfl, rfl⟩ := hends u hsame hwhole
      have hidle : frameReset u = idle := hsame.frameReset_eq.trans h.frameReset_eq
      rw [dispatchFrame_of_holds hholds] at hd
      exact .inr ⟨hrest, by rw [ok_eq_ok.mp hd, ← hidle]; rfl⟩
    | @mismatches u hsame hwhole hcrc hno =>
      obtain ⟨hholds, hcfg, rfl, rfl, -, -⟩ := hends u hsame hwhole
      have hmatch := hf.checksum (hcfg ▸ hcrc)
      have hverdict := crcMatches_of_holds (hcfg ▸ hw) hholds hno
      rw [hcfg, hmatch, beq_self_eq_true] at hverdict
      cases hverdict

end

/-! ### The filter on stuffed bytes (R108) -/

theorem byteStep_leader_last {s : State} {b : Byte} (hb : b = s.cfg.leader) (h : s.run + 1 = s.cfg.n) :
    byteStep b s = ldrSync b s := by
  rw [byteStep, hb, filterOp_leader_last h, filterByte]

theorem byteStep_leader {s : State} {b : Byte} (hb : b = s.cfg.leader) (h : s.run + 1 ≠ s.cfg.n) :
    byteStep b s = passByte b { s with run := s.run + 1 } := by
  rw [byteStep, hb, filterOp_leader h, filterByte, ldrPass]

theorem byteStep_esc_last {s : State} {b : Byte} (hw : s.cfg.wf = true) (hb : b = s.cfg.esc) (h : s.run + 1 = s.cfg.n) :
    byteStep b s = .ok { s with run := 0 } := by
  rw [byteStep, hb, filterOp_esc_last (Cfg.esc_ne_leader_of_wf hw) h, filterByte, escDrop]

theorem byteStep_of_ne_leader {s : State} {b : Byte} (hb : b ≠ s.cfg.leader) (h : s.run + 1 ≠ s.cfg.n) :
    byteStep b s = passByte b { s with run := 0 } := by
  by_cases he : b = s.cfg.esc
  · subst he
    rw [byteStep, filterOp_esc hb h, filterByte, escPass]
  · rw [byteStep, filterOp_literal _ hb he, filterByte, litPass]

/-- Outside a frame `N` leader bytes in a row sync (R109). -/
theorem ingest_leaders {k : Nat} {s : State} (hs : s.state = .findStart) (h : s.run + k + 1 = s.cfg.n) :
    ingest (List.replicate (k + 1) s.cfg.leader) s = .ok { frameReset s with state := .readControlWord } := by
  induction k generalizing s with
  | zero =>
    rw [List.replicate_one, ingest, byteStep_leader_last rfl h, ldrSync_eq_ok.mpr (.inl ⟨hs, rfl⟩)]
    rfl
  | succ k ih =>
    have hstep : byteStep s.cfg.leader s = .ok { s with run := s.run + 1 } := by
      rw [byteStep_leader rfl (by omega)]
      exact passByte_of_findStart _ hs
    rw [List.replicate_succ, ingest, hstep, res_ok_bind]
    exact ih (s := { s with run := s.run + 1 }) hs (by simp only; omega)

/-- A byte outside a frame that is no leader byte changes nothing of a block at reset. -/
theorem byteStep_atReset {s : State} {b : Byte} (hw : s.cfg.wf = true) (h : s.AtReset) (hb : b ≠ s.cfg.leader) :
    byteStep b s = .ok s := by
  obtain ⟨hs, hrun, -⟩ := h
  obtain ⟨hn, -⟩ := Cfg.bounds_of_wf hw
  have hself : { s with run := 0 } = s := by rw [← hrun]
  rw [byteStep_of_ne_leader hb (by omega), hself, passByte_of_findStart b hs]

section
variable {idle : State} {fl : Flags} {hl : Nat} {dl : Word16}

/-- A passed byte of a deliverable frame, and then the rest of the work: it is enough to say what the rest of the work gives
after the hand-off, and what it gives while the frame goes on. -/
theorem State.Taking.passByte_bind {s out : State} {taken rest : List Byte} {b : Byte} {k : State → Res State}
    (h : s.Taking idle taken) (hw : idle.cfg.wf = true) (hf : Deliverable idle.cfg (taken ++ b :: rest) fl hl dl)
    (hlast : rest = [] → k (emit (.dispatch (taken ++ [b]) fl hl dl) idle) = .ok out)
    (hmore : ∀ t : State, rest ≠ [] → t.Taking idle (taken ++ [b]) → t.run = s.run → k t = .ok out) :
    passByte b s >>= k = .ok out := by
  obtain ⟨t, ht⟩ := passByte_run_completes b s.run (h.cfg_eq ▸ hw) h.inv
  have ht' : passByte b s = .ok t := ht
  rw [ht', res_ok_bind]
  rcases h.passByte_cases hw hf ht' with ⟨hne, htaking, hrun⟩ | ⟨hnil, rfl⟩
  · exact hmore t hne htaking hrun
  · exact hlast hnil

/-- The stuffed rest of a deliverable frame is taken as the rest itself would be, and the frame is handed over. -/
theorem ingest_stuffFrom (hw : idle.cfg.wf = true) (rest : List Byte) {taken : List Byte} {s : State}
    (h : s.Taking idle taken) (hne : rest ≠ []) (hrun : s.run + 1 < idle.cfg.n)
    (hf : Deliverable idle.cfg (taken ++ rest) fl hl dl) :
    ingest (stuffFrom idle.cfg s.run rest) s = .ok (emit (.dispatch (taken ++ rest) fl hl dl) idle) := by
  induction rest generalizing taken s with
  | nil => exact absurd rfl hne
  | cons b rest ih =>
    obtain ⟨hn, -⟩ := Cfg.bounds_of_wf hw
    have hcfg := h.cfg_eq
    have hnosync : s.run + 1 ≠ s.cfg.n := by rw [hcfg]; exact hrun.ne
    have hframe : taken ++ b :: rest = (taken ++ [b]) ++ rest := by simp
    -- the hypothesis of the induction, for the state after this byte
    have hgo : ∀ {u : State} {r : Nat}, u.Taking idle (taken ++ [b]) → u.run = r → r + 1 < idle.cfg.n → rest ≠ [] →
        ingest (stuffFrom idle.cfg r rest) u = .ok (emit (.dispatch (taken ++ b :: rest) fl hl dl) idle) := by
      rintro u _ hu rfl hlt hrest
      rw [hframe] at hf ⊢
      exact ih hu hrest hlt hf
    rw [stuffFrom]
    split_ifs with hb hlast
    · rw [ingest, byteStep_leader (hcfg ▸ hb) hnosync]
      refine (h.setRun (r := s.run + 1) (by omega)).passByte_bind hw hf ?_ ?_
      · rintro rfl
        have hreset : idle.AtReset := h.frameReset_eq ▸ atReset_frameReset s
        have hidle : byteStep idle.cfg.esc (emit (.dispatch (taken ++ [b]) fl hl dl) idle)
            = .ok (emit (.dispatch (taken ++ [b]) fl hl dl) idle) :=
          byteStep_atReset (s := emit _ idle) hw hreset (Cfg.esc_ne_leader_of_wf hw)
        rw [ingest, hidle, res_ok_bind, stuffFrom, ingest]
      · intro t hrest ht htrun
        have htcfg := ht.cfg_eq
        have hfull : t.run + 1 = t.cfg.n := by rw [htrun, htcfg]; exact hlast
        rw [ingest, byteStep_esc_last (htcfg ▸ hw) (htcfg ▸ rfl) hfull, res_ok_bind]
        exact hgo (ht.setRun (by omega)) rfl (by omega) hrest
    · rw [ingest, byteStep_leader (hcfg ▸ hb) hnosync]
      refine (h.setRun (r := s.run + 1) (by omega)).passByte_bind hw hf ?_ ?_
      · rintro rfl; rfl
      · intro t hrest ht htrun
        exact hgo ht htrun (by omega) hrest
    · rw [ingest, byteStep_of_ne_leader (hcfg ▸ hb) hnosync]
      refine (h.setRun (r := 0) (by omega)).passByte_bind hw hf ?_ ?_
      · rintro rfl; rfl
      · intro t hrest ht htrun
        exact hgo ht htrun (by omega) hrest

end

/-! ### From the leader to the hand-off -/

theorem State.Inv.atReset {s : State} (h : s.Inv) (hs : s.state = .findStart) (hrun : s.run = 0) : s.AtReset := by
  have hpacked := h.packed
  obtain ⟨-, -, -, hfind, -⟩ := h
  obtain ⟨hlen, hrest⟩ := hfind hs
  rw [State.Packed, hlen, List.range_zero, List.map_eq_nil_iff] at hpacked
  exact ⟨hs, hrun, hpacked, hlen, hrest⟩

theorem frameReset_of_atReset {s : State} (h : s.AtReset) : frameReset s = s := by
  obtain ⟨hs, hrun, hbuf, hlen, hhdr, hdata, hcrc, hflags, hhl, hdl⟩ := h
  cases s
  simp_all [frameReset]

/-- After the sync the block has taken nothing of the frame yet. -/
theorem taking_nil_of_atReset {s : State} (hw : s.cfg.wf = true) (h : s.AtReset) :
    State.Taking { frameReset s with state := .readControlWord } s [] :=
  ⟨inv_of_atSync hw ⟨rfl, rfl, rfl, rfl, rfl, rfl, rfl, rfl, rfl, rfl⟩,
    latched_of_not_decoded (not_decoded_of_readControlWord rfl), nofun, ⟨rfl, fun _ hi => absurd hi (Nat.not_lt_zero _)⟩,
    frameReset_of_atReset h⟩

/-- A deliverable frame, stuffed and behind its leader, is handed over to the last byte and leaves the block at reset. -/
theorem ingest_deliverable {s : State} {frame : List Byte} {fl : Flags} {hl : Nat} {dl : Word16} (hw : s.cfg.wf = true)
    (h : s.AtReset) (hf : Deliverable s.cfg frame fl hl dl) :
    ingest (List.replicate s.cfg.n s.cfg.leader ++ stuff s.cfg frame) s = .ok (emit (.dispatch frame fl hl dl) s) := by
  obtain ⟨hn, -⟩ := Cfg.bounds_of_wf hw
  obtain ⟨hs, hrun, -⟩ := id h
  have hcount : s.cfg.n - 1 + 1 = s.cfg.n := by omega
  have hsync := ingest_leaders (k := s.cfg.n - 1) hs (by omega)
  rw [hcount] at hsync
  have hne : frame ≠ [] := by
    have htwo := hf.two_le_hdrLen hw
    have hle := hf.hdrLen_le_length
    rintro rfl
    simp at hle
    omega
  rw [ingest_append, hsync, res_ok_bind]
  exact ingest_stuffFrom hw frame (taking_nil_of_atReset hw h) hne hn hf

/-- Settles O54: what R84 sends is deliverable. -/
theorem sentFrameIsHandedOverExactly : Obligations.SentFrameIsHandedOverExactly := by
  intro s cw fl vals data hw hinv hs hrun hcw hmax hdata
  exact finish_eq_next.mpr
    (ingest_deliverable hw (hinv.atReset hs hrun) (content_deliverable vals hw hcw hmax hdata))

end Sys2Proof.Machine
end

section
/-! The delimiter/escape filter (40_filter.md): it inverts the sender's stuffing (R108), a sync starts a frame and cuts one in
progress (R102), a stuffing escape is dropped (R103), a run of leader bytes synchronises (R109), and every byte operation
completes from a good state (R83). -/

namespace Sys2Proof.Machine

/-! ### The filter alone inverts the stuffing (R108) -/

theorem passedBytes_leader {c : Cfg} {run : Nat} (h : run + 1 ≠ c.n) (bs : List Byte) :
    passedBytes c run (c.leader :: bs) = (passedBytes c (run + 1) bs).map (c.leader :: ·) := by
  rw [passedBytes, filterOp_leader h]

theorem passedBytes_esc_last {c : Cfg} {run : Nat} (hne : c.esc ≠ c.leader) (h : run + 1 = c.n) (bs : List Byte) :
    passedBytes c run (c.esc :: bs) = passedBytes c 0 bs := by
  rw [passedBytes, filterOp_esc_last hne h]

theorem passedBytes_of_ne_leader {c : Cfg} {run : Nat} {b : Byte} (hb : b ≠ c.leader) (h : run + 1 ≠ c.n)
    (bs : List Byte) : passedBytes c run (b :: bs) = (passedBytes c 0 bs).map (b :: ·) := by
  by_cases he : b = c.esc
  · subst he
    rw [passedBytes, filterOp_esc hb h]
  · rw [passedBytes, filterOp_literal run hb he]

/-- From any count below `N-1`, sender and filter counting alike: only the escape that the sender inserts at a count of `N-1`
meets the filter at that count, so no leader byte does. -/
theorem passedBytes_stuffFrom {c : Cfg} (hw : c.wf = true) {r : Nat} (hr : r + 1 < c.n) (bs : List Byte) :
    passedBytes c r (stuffFrom c r bs) = some bs := by
  obtain ⟨hn, -⟩ := Cfg.bounds_of_wf hw
  induction bs generalizing r with
  | nil => rfl
  | cons b bs ih =>
    have hcleared : passedBytes c 0 (stuffFrom c 0 bs) = some bs := ih (by omega)
    rw [stuffFrom]
    split_ifs with hb hlast
    · subst hb
      rw [passedBytes_leader hr.ne, passedBytes_esc_last (Cfg.esc_ne_leader_of_wf hw) hlast, hcleared, Option.map_some]
    · subst hb
      rw [passedBytes_leader hr.ne, ih (by omega), Option.map_some]
    · rw [passedBytes_of_ne_leader hb hr.ne, hcleared, Option.map_some]

/-- Settles O28: sender and filter begin with no leader byte counted. -/
theorem destuffingInvertsStuffing : Obligations.DestuffingInvertsStuffing := by
  intro c bs hw
  obtain ⟨hn, -⟩ := Cfg.bounds_of_wf hw
  exact passedBytes_stuffFrom hw hn bs

/-! ### The sync (R102) -/

theorem exec_ldrSync_eq_next {b : Byte} {s t : State} : exec (.ldrSync b) s = .next t ↔ ldrSync b s = .ok t :=
  finish_eq_next (r := ldrSync b s)

theorem ldrSync_completes (b : Byte) (s : State) : ∃ t, ldrSync b s = .ok t := ⟨_, rfl⟩

/-- Settles O23. -/
theorem syncStartsAFrameAndCutsOneInProgress : Obligations.SyncStartsAFrameAndCutsOneInProgress := by
  refine ⟨fun b s hs => ?_, fun b s hs => ?_, fun s rest hw hi hrun => ?_⟩
  · exact exec_ldrSync_eq_next.mpr (ldrSync_eq_ok.mpr (.inl ⟨hs, rfl⟩))
  · exact exec_ldrSync_eq_next.mpr (ldrSync_eq_ok.mpr (.inr ⟨hs, rfl⟩))
  · obtain ⟨t, ht⟩ := ldrSync_completes s.cfg.leader { s with input := rest }
    obtain ⟨-, hinput, -⟩ := ldrSync_extendedBy ht
    have hbyte : byteStep s.cfg.leader { s with input := rest } = .ok t :=
      (byteStep_leader_last (s := { s with input := rest }) rfl hrun).trans ht
    exact ⟨t, (step_byte hw hi).trans (finish_eq_next.mpr hbyte), ldrSync_atSync ht, hinput⟩

/-! ### Every byte operation completes from a good state (R83) -/

/-- A passed byte, with a count that R33 allows (R100, R107). -/
theorem exec_stateInstr_completes (b : Byte) {s : State} {r : Nat} (hw : s.cfg.wf = true) (hinv : s.Inv)
    (hr : r < s.cfg.n) : ∃ t, exec (stateInstr s.state b) { s with run := r } = .next t ∧ t.Inv := by
  obtain ⟨t, ht⟩ := passByte_run_completes b r hw hinv
  exact ⟨t, (finish_passByte b { s with run := r }).symm.trans (finish_eq_next.mpr ht),
    passByte_inv ht hw (hinv.setRun hr)⟩

/-- Settles O26: a sync leaves a good state whatever the state before, a dropped escape writes the count only, and every other
operation is, or passes its byte to, the operation of the current state. -/
theorem byteOperationsCompleteFromGoodStates : Obligations.ByteOperationsCompleteFromGoodStates := by
  intro b s hw hinv
  have hrun := hinv.run_lt
  have hzero : 0 < s.cfg.n := Nat.zero_lt_of_lt hrun
  have hsync : ∃ t, exec (.ldrSync b) s = .next t ∧ t.Inv := by
    obtain ⟨t, ht⟩ := ldrSync_completes b s
    obtain ⟨hcfg, -⟩ := ldrSync_extendedBy ht
    exact ⟨t, exec_ldrSync_eq_next.mpr ht, inv_of_atSync (hcfg ▸ hw) (ldrSync_atSync ht)⟩
  have hcleared := exec_stateInstr_completes b hw hinv hzero
  have hstate : ∀ st, s.state = st → ∃ t, exec (stateInstr st b) s = .next t ∧ t.Inv := by
    rintro _ rfl
    exact exec_stateInstr_completes b hw hinv hrun
  exact ⟨hsync,
    fun hlt => (exec_ldrPass b s).symm ▸ exec_stateInstr_completes b hw hinv hlt,
    ⟨{ s with run := 0 }, rfl, hinv.setRun hzero⟩,
    (exec_escPass b s).symm ▸ hcleared,
    (exec_litPass b s).symm ▸ hcleared,
    hstate .findStart, hstate .readControlWord, hstate .readHeader, hstate .readData, hstate .readChecksum⟩

/-! ### Runs of leader bytes (R109) -/

/-- One more leader byte where `N-1` are counted: whatever came before, the result is that of the sync. -/
theorem ingest_concat_leader {bs : List Byte} {s mid : State} (h : ingest bs s = .ok mid) (hrun : mid.run + 1 = s.cfg.n) :
    ingest (bs ++ [s.cfg.leader]) s = ldrSync s.cfg.leader mid := by
  obtain ⟨hcfg, -⟩ := ingest_extendedBy h
  rw [ingest_append, h, res_ok_bind, ingest, byteStep_leader_last (congrArg _ hcfg.symm) (hcfg ▸ hrun)]
  rfl

/-- Settles O27. -/
theorem leaderRunSynchronises : Obligations.LeaderRunSynchronises := by
  refine ⟨fun s hw hs hrun => ?_, fun s mid hw hlt hmid hrun => ?_⟩
  · obtain ⟨hn, -⟩ := Cfg.bounds_of_wf hw
    have hcount : s.cfg.n = s.cfg.n - 1 + 1 := by omega
    have hsync := ingest_leaders (k := s.cfg.n - 1) hs (by omega)
    rw [← hcount] at hsync
    exact finish_eq_next.mpr hsync
  · obtain ⟨t, ht⟩ := ldrSync_completes s.cfg.leader mid
    have hcount : s.cfg.n - s.run = s.cfg.n - s.run - 1 + 1 := by omega
    have hsync := (ingest_concat_leader (finish_eq_next.mp hmid) hrun).trans ht
    rw [← List.replicate_succ', ← hcount] at hsync
    exact ⟨t, finish_eq_next.mpr hsync, ldrSync_atSync ht⟩

/-! ### The stuffing escape (R103) -/

theorem exec_escDrop (b : Byte) (s : State) : exec (.escDrop b) s = .next { s with run := 0 } := rfl

/-- Settles O24. -/
theorem stuffingEscapeIsDropped : Obligations.StuffingEscapeIsDropped :=
  ⟨exec_escDrop, fun s rest hw hi hrun =>
    (step_byte hw hi).trans (congrArg finish (byteStep_esc_last (s := { s with input := rest }) hw rfl hrun))⟩

end Sys2Proof.Machine
end

section
/-! The verification gate (R128, R188, R201), from every state. The idea: a byte hands a frame over only where the checksum flag is
clear or `CRCCHK` has answered match (`Emission`), and the verdict and the hand-off read the same buffer. -/

namespace Sys2Proof.Machine

/-- What a byte taken in `s` can emit: nothing, a discard, or a frame that needs no check or has passed it. -/
inductive Emission (s : State) : State → Prop where
  | silent {t : State} (hevents : t.events = s.events) : Emission s t
  | discards {t : State} {cause : Cause} {st : ParseState} {len : Nat}
      (hevents : t.events = s.events ++ [.diag cause st len]) : Emission s t
  | handsOver {u t : State} (hcfg : u.cfg = s.cfg) (hevents : u.events = s.events)
      (hcheck : u.hasCrc = true → crcMatches u = .ok true) (h : dispatchFrame u = .ok t) : Emission s t

/-- Only the configuration and the events before have a part in it. -/
theorem Emission.of_eq {s u t : State} (h : Emission u t) (hcfg : u.cfg = s.cfg) (hevents : u.events = s.events) :
    Emission s t := by
  cases h with
  | silent ht => exact .silent (ht.trans hevents)
  | discards ht => exact .discards (hevents ▸ ht)
  | handsOver vcfg vevents hcheck h => exact .handsOver (vcfg.trans hcfg) (vevents.trans hevents) hcheck h

theorem dispatchFrame_emission {s t : State} (h : dispatchFrame s = .ok t) (hno : s.hasCrc = false) : Emission s t :=
  .handsOver rfl rfl (fun hcrc => by simp [hno] at hcrc) h

theorem dataDone_emission {s t : State} (h : dataDone s = .ok t) : Emission s t := by
  rcases dataDone_eq_ok.mp h with ⟨-, rfl⟩ | ⟨-, -, rfl⟩ | ⟨-, hno, h⟩
  · exact .silent rfl
  · exact .silent rfl
  · exact dispatchFrame_emission h hno

theorem hdrDone_emission {s t : State} (h : hdrDone s = .ok t) : Emission s t := by
  rcases hdrDone_eq_ok.mp h with ⟨-, rfl⟩ | ⟨-, -, h⟩ | ⟨-, -, -, rfl⟩ | ⟨-, -, hno, h⟩
  · exact .silent rfl
  · exact (dataDone_emission h).of_eq rfl rfl
  · exact .silent rfl
  · exact dispatchFrame_emission h hno

theorem crcComplete_emission {s t : State} (h : crcComplete s = .ok t) : Emission s t := by
  rcases crcComplete_eq_ok.mp h with ⟨hmatch, h⟩ | ⟨-, rfl⟩
  · exact .handsOver rfl rfl (fun _ => hmatch) h
  · exact .discards (discardFrame_events .crcMismatch s)

theorem stCw_emission {b : Byte} {s t : State} (h : stCw b s = .ok t) : Emission s t := by
  rcases stCw_eq_ok.mp h with ⟨-, rfl⟩ | ⟨-, -, ⟨-, rfl⟩ | ⟨-, h⟩⟩
  · exact .discards (discardFrame_events .hdrBound s)
  · exact .silent rfl
  · obtain ⟨_, -, h⟩ := cwComplete_eq_ok.mp h
    exact (hdrDone_emission h).of_eq rfl rfl

theorem stHdr_emission {b : Byte} {s t : State} (h : stHdr b s = .ok t) : Emission s t := by
  rcases stHdr_eq_ok.mp h with ⟨-, rfl⟩ | ⟨-, -, u, hu, h⟩
  · exact .discards (discardFrame_events .hdrBound s)
  · have hsame := dlenLatch_sameBytes hu
    exact (hdrDone_emission h).of_eq hsame.cfg_eq hsame.events_eq

theorem stData_emission {b : Byte} {s t : State} (h : stData b s = .ok t) : Emission s t := by
  obtain ⟨-, h⟩ := stData_eq_ok.mp h
  exact (dataDone_emission h).of_eq rfl rfl

theorem stCrc_emission {b : Byte} {s t : State} (h : stCrc b s = .ok t) : Emission s t := by
  obtain ⟨-, ⟨-, rfl⟩ | ⟨-, h⟩⟩ := stCrc_eq_ok.mp h
  · exact .silent rfl
  · exact (crcComplete_emission h).of_eq rfl rfl

theorem passByte_emission {b : Byte} {s t : State} (h : passByte b s = .ok t) : Emission s t := by
  rcases passByte_cases h with ⟨-, rfl⟩ | ⟨-, h⟩ | ⟨-, h⟩ | ⟨-, h⟩ | ⟨-, h⟩
  · exact .silent rfl
  · exact stCw_emission h
  · exact stHdr_emission h
  · exact stData_emission h
  · exact stCrc_emission h

theorem ldrSync_emission {b : Byte} {s t : State} (h : ldrSync b s = .ok t) : Emission s t := by
  rcases ldrSync_eq_ok.mp h with ⟨-, rfl⟩ | ⟨-, rfl⟩
  · exact .silent rfl
  · exact .discards (discardFrame_events .resync s)

theorem byteStep_emission {b : Byte} {s t : State} (h : byteStep b s = .ok t) : Emission s t := by
  rcases byteStep_cases h with ⟨-, -, h⟩ | ⟨-, -, -, rfl⟩ | ⟨-, -, h⟩ | ⟨-, h⟩
  · exact ldrSync_emission h
  · exact .silent rfl
  · exact (passByte_emission h).of_eq rfl rfl
  · exact (passByte_emission h).of_eq rfl rfl

/-- The frame is long enough for a trailer, and its trailer is its checksum (R187, R188). -/
def ChecksumVerified (c : Cfg) (frame : List Byte) : Prop :=
  4 ≤ frame.length ∧ crc32 c (frame.take (frame.length - 4)) = be32 (frame.drop (frame.length - 4))

/-- What a match says of the bytes the buffer holds (R188). -/
theorem checksumVerified_of_crcMatches {s : State} {frame : List Byte} (hw : s.cfg.wf = true) (hf : s.Holds frame)
    (h : crcMatches s = .ok true) : ChecksumVerified s.cfg frame := by
  obtain ⟨-, -, hwidth⟩ := Cfg.widths_of_wf hw
  obtain ⟨hle, -⟩ := crcMatches_eq_ok.mp h
  obtain ⟨hlen, -⟩ := id hf
  exact ⟨by omega, beq_iff_eq.mp (crcMatches_of_holds hw hf h).symm⟩

theorem Emission.checksumVerified {s t : State} {frame : List Byte} {fl : Flags} {hl : Nat} {dl : Word16}
    (h : Emission s t) (hw : s.cfg.wf = true) (he : t.events = s.events ++ [.dispatch frame fl hl dl])
    (hcrc : flagSet fl s.cfg.fCrc = true) : ChecksumVerified s.cfg frame := by
  cases h with
  | silent hevents => simp [hevents] at he
  | discards hevents => simp [hevents] at he
  | @handsOver u _ hcfg hevents hcheck hd =>
    obtain ⟨frame', hread, rfl⟩ := dispatchFrame_eq_ok.mp hd
    obtain ⟨rfl, rfl, -, -⟩ : frame' = frame ∧ u.flags = fl ∧ u.hdrLen = hl ∧ u.dataLen = dl := by
      simpa [hevents] using he
    rw [← hcfg] at hw hcrc ⊢
    exact checksumVerified_of_crcMatches hw (holds_iff_readRange.mpr hread) (hcheck hcrc)

/-- Settles O48. -/
theorem noChecksummedFrameIsHandedOverUnverified : Obligations.NoChecksummedFrameIsHandedOverUnverified := by
  intro s t b rest frame fl hl dl hi h he hcrc
  obtain ⟨hw, -⟩ := step_cases h
  exact (byteStep_emission (byteStep_of_step hi h)).checksumVerified (s := { s with input := rest }) hw he hcrc

end Sys2Proof.Machine
end

section
/-! The frame state machine (41_frame_fsm.md): what each of its operations answers in each of its cases (R121 to R128), that the
flags and the header length are written at the second control-word byte only (R130), and the step function R132. -/

namespace Sys2Proof.Machine

/-! ### The completion tests and the latch (R124, R125, R127) -/

theorem exec_dataDone (s : State) : exec .dataDone s = finish (dataDone s) := rfl

theorem exec_hdrDone (s : State) : exec .hdrDone s = finish (hdrDone s) := rfl

theorem exec_dlenLatch (s : State) : exec .dlenLatch s = finish (dlenLatch s) := rfl

theorem dataDone_of_ne {s : State} (h : s.dataIdx ≠ s.dataLen.toNat) : dataDone s = .ok s :=
  dataDone_eq_ok.mpr (.inl ⟨h, rfl⟩)

theorem hdrDone_of_ne {s : State} (h : s.hdrIdx ≠ s.hdrLen) : hdrDone s = .ok s := hdrDone_eq_ok.mpr (.inl ⟨h, rfl⟩)

/-- With the header complete and a data field present, the data test runs at once (R125). -/
theorem hdrDone_of_hasData {s : State} (h : s.hdrIdx = s.hdrLen) (hhas : s.hasData = true) :
    hdrDone s = dataDone { s with state := .readData } := by
  rw [hdrDone, if_pos h, if_pos hhas]

/-- Settles O34. -/
theorem dataCompletionSelectsTheNextStage : Obligations.DataCompletionSelectsTheNextStage := by
  refine ⟨fun s hne => ?_, fun s heq hcrc => ?_, fun s frame heq hno hf => ?_⟩ <;> rw [exec_dataDone, finish_eq_next]
  · exact dataDone_of_ne hne
  · exact dataDone_eq_ok.mpr (.inr (.inl ⟨heq, hcrc, rfl⟩))
  · exact dataDone_eq_ok.mpr (.inr (.inr ⟨heq, hno, dispatchFrame_of_holds hf⟩))

/-- Settles O33. -/
theorem headerCompletionSelectsTheNextStage : Obligations.HeaderCompletionSelectsTheNextStage := by
  refine ⟨fun s hne => ?_, fun s heq hhas => ?_, fun s heq hnone hcrc => ?_, fun s frame heq hnone hno hf => ?_⟩ <;>
    rw [exec_hdrDone]
  · rw [hdrDone_of_ne hne, finish_ok]
  · rw [hdrDone_of_hasData heq hhas]
    exact ⟨rfl, fun hne => finish_eq_next.mpr (dataDone_of_ne hne)⟩
  · exact finish_eq_next.mpr (hdrDone_eq_ok.mpr (.inr (.inr (.inl ⟨heq, hnone, hcrc, rfl⟩))))
  · exact finish_eq_next.mpr (hdrDone_eq_ok.mpr (.inr (.inr (.inr ⟨heq, hnone, hno, dispatchFrame_of_holds hf⟩))))

theorem be16_pair (b0 b1 : Byte) : be16 [b0, b1] = BitVec.ofNat 16 (b0.toNat * 256 + b1.toNat) := by simp [be16, beNat]

/-- Where not both bytes of a present data-length field have just arrived, the latch does nothing (R124). -/
theorem dlenLatch_of_not {s : State} (hw : s.cfg.wf = true)
    (h : s.hasData = true → s.hdrIdx ≠ fldoff s.cfg s.flags s.cfg.fData + 2) : dlenLatch s = .ok s := by
  obtain ⟨-, hwidth, -⟩ := Cfg.widths_of_wf hw
  refine dlenLatch_eq_ok.mpr (.inr ⟨?_, rfl⟩)
  rintro ⟨hhas, heq⟩
  exact h hhas (hwidth ▸ heq)

/-- Settles O32. -/
theorem dataLengthIsLatchedWhenItsFieldIsComplete : Obligations.DataLengthIsLatchedWhenItsFieldIsComplete := by
  refine ⟨fun s b0 b1 hw hhas heq h0 h1 => ?_, fun s hnone => ?_, fun s hw hne => ?_⟩ <;>
    rw [exec_dlenLatch, finish_eq_next]
  · obtain ⟨-, hwidth, -⟩ := Cfg.widths_of_wf hw
    have hread : s.buf.readRange (fldoff s.cfg s.flags s.cfg.fData) s.cfg.dlenWidth = some [b0, b1] := by
      simp [hwidth, Memory.readRange, h0, h1]
    exact dlenLatch_eq_ok.mpr (.inl ⟨hhas, hwidth.symm ▸ heq, [b0, b1], hread, by rw [be16_pair]⟩)
  · exact dlenLatch_eq_ok.mpr (.inr ⟨fun hat => by simp [hnone] at hat, rfl⟩)
  · exact dlenLatch_of_not hw fun _ => hne

/-! ### `ST_FIND` (R121) -/

/-- Settles O25. -/
theorem findStartDiscardsEveryPassedByte : Obligations.FindStartDiscardsEveryPassedByte := by
  refine fun b s => ⟨rfl, fun hs => ⟨?_, ?_, ?_⟩⟩
  · exact finish_eq_next.mpr (passByte_of_findStart (s := { s with run := s.run + 1 }) b hs)
  · exact finish_eq_next.mpr (passByte_of_findStart (s := { s with run := 0 }) b hs)
  · exact finish_eq_next.mpr (passByte_of_findStart (s := { s with run := 0 }) b hs)

/-! ### Appending (R51) -/

theorem bufAppend_of_lt (b : Byte) {s : State} (hroom : s.bufLen < bufCap s.cfg) : bufAppend b s = .ok (s.appended b) :=
  bufAppend_eq_ok.mpr ⟨hroom, rfl⟩

/-- Reads inside a buffer that holds `bs` succeed, with the slice of `bs` (R52). -/
theorem State.Holds.readRange_slice {s : State} {bs : List Byte} {a n : Nat} (h : s.Holds bs) (hle : a + n ≤ s.bufLen) :
    s.buf.readRange a n = some ((bs.drop a).take n) := by
  obtain ⟨hlen, hreads⟩ := h
  refine Memory.readRange_eq_some.mpr ⟨by simp; omega, fun i hi => ?_⟩
  rw [hreads (a + i) (by omega), List.getElem?_take_of_lt hi, List.getElem?_drop]

/-! ### `ST_CW` (R122) -/

theorem exec_stCw (b : Byte) (s : State) : exec (.stCw b) s = finish (stCw b s) := rfl

/-- The byte that completes the control word (R122). -/
theorem stCw_of_last (b : Byte) {s : State} (hlt : s.hdrIdx < s.cfg.maxHdr) (hroom : s.bufLen < bufCap s.cfg)
    (hlast : s.hdrIdx + 1 = s.cfg.cwWidth) : stCw b s = cwComplete { s.appended b with hdrIdx := s.hdrIdx + 1 } := by
  rw [stCw, if_neg (Nat.not_le.mpr hlt), bufAppend_of_lt b hroom, res_ok_bind]
  exact if_pos hlast

/-- The decode of a control word that stands in the buffer (R122). -/
theorem cwComplete_of_readRange {s : State} {cw : List Byte} (h : s.buf.readRange 0 s.cfg.cwWidth = some cw) :
    cwComplete s = hdrDone { s with
      flags := hamdec s.cfg (be16 cw), hdrLen := hdrlen s.cfg (hamdec s.cfg (be16 cw)), state := .readHeader } := by
  rw [cwComplete, hamdecFlags_eq_ok.mpr ⟨cw, h, rfl⟩]
  rfl

/-- Settles O29. -/
theorem controlWordIsCollectedAndDecoded : Obligations.ControlWordIsCollectedAndDecoded := by
  refine ⟨fun b s hw hlt hne hroom => ?_, fun b b0 s hw hlt hone hf => ?_, fun b s hge => ?_⟩ <;> rw [exec_stCw]
  · obtain ⟨hcw, -⟩ := Cfg.widths_of_wf hw
    exact finish_eq_next.mpr (stCw_eq_ok.mpr (.inr ⟨hlt, hroom, .inl ⟨by omega, rfl⟩⟩))
  · intro fl u
    obtain ⟨hcw, -⟩ := Cfg.widths_of_wf hw
    obtain ⟨hlen, -⟩ := id hf
    have hbuf : s.bufLen = 1 := hlen.symm
    have hroom : s.bufLen < bufCap s.cfg := by rw [bufCap]; omega
    have hread : (s.appended b).buf.readRange 0 s.cfg.cwWidth = some [b0, b] := by
      have hcount : s.cfg.cwWidth = (s.appended b).bufLen := hcw.trans (congrArg (· + 1) hbuf.symm)
      rw [hcount]
      exact (hf.append b).readRange
    have hdone : stCw b s = hdrDone u := by
      rw [stCw_of_last b hlt hroom (by omega),
        cwComplete_of_readRange (s := { s.appended b with hdrIdx := s.hdrIdx + 1 }) hread, be16_pair, hone]
      rfl
    rw [hdone]
    exact ⟨rfl, fun hne => finish_eq_next.mpr (hdrDone_of_ne (s := u) hne.symm)⟩
  · exact finish_eq_next.mpr (stCw_eq_ok.mpr (.inl ⟨hge, rfl⟩))

/-! ### `ST_HDR` (R123) -/

theorem exec_stHdr (b : Byte) (s : State) : exec (.stHdr b) s = finish (stHdr b s) := rfl

/-- Below the bound, once the latch has run, the header test decides (R123). -/
theorem stHdr_of_dlenLatch {b : Byte} {s u : State} (hlt : s.hdrIdx < s.cfg.maxHdr) (hroom : s.bufLen < bufCap s.cfg)
    (hu : dlenLatch { s.appended b with hdrIdx := s.hdrIdx + 1 } = .ok u) : stHdr b s = hdrDone u := by
  rw [stHdr, if_neg (Nat.not_le.mpr hlt), bufAppend_of_lt b hroom, res_ok_bind]
  exact (congrArg (· >>= hdrDone) hu).trans (res_ok_bind u hdrDone)

/-- Settles O30. -/
theorem headerByteIsAppendedOrTripsTheBound : Obligations.HeaderByteIsAppendedOrTripsTheBound := by
  refine ⟨fun b s hge => ?_, fun b s u hlt hroom hu => ?_, fun b s hw hlt hroom hne hnot => ?_⟩ <;> rw [exec_stHdr]
  · exact finish_eq_next.mpr (stHdr_eq_ok.mpr (.inl ⟨hge, rfl⟩))
  · rw [stHdr_of_dlenLatch hlt hroom (finish_eq_next.mp hu), exec_hdrDone]
  · have hlatch := dlenLatch_of_not (s := { s.appended b with hdrIdx := s.hdrIdx + 1 }) hw hnot
    rw [stHdr_of_dlenLatch hlt hroom hlatch]
    exact finish_eq_next.mpr (hdrDone_of_ne hne)

/-! ### `ST_DATA` (R126) -/

theorem exec_stData (b : Byte) (s : State) : exec (.stData b) s = finish (stData b s) := rfl

theorem stData_of_lt (b : Byte) {s : State} (hroom : s.bufLen < bufCap s.cfg) :
    stData b s = dataDone { s.appended b with dataIdx := s.dataIdx + 1 } := by
  rw [stData, bufAppend_of_lt b hroom]
  rfl

/-- Settles O35. -/
theorem dataByteIsAppendedAndCounted : Obligations.DataByteIsAppendedAndCounted := by
  refine ⟨fun b s hroom => ?_, fun b s hroom hne => ?_⟩ <;> rw [exec_stData, stData_of_lt b hroom]
  · rw [exec_dataDone]
  · exact finish_eq_next.mpr (dataDone_of_ne hne)

/-! ### `ST_CRC` (R128) -/

theorem exec_stCrc (b : Byte) (s : State) : exec (.stCrc b) s = finish (stCrc b s) := rfl

/-- The byte that completes the trailer (R128). -/
theorem stCrc_of_last (b : Byte) {s : State} (hroom : s.bufLen < bufCap s.cfg) (hlast : s.crcIdx + 1 = s.cfg.crcWidth) :
    stCrc b s = crcComplete { s.appended b with crcIdx := s.crcIdx + 1 } := by
  rw [stCrc, bufAppend_of_lt b hroom, res_ok_bind]
  exact if_pos hlast

/-- The verdict on a buffer that holds a region and a trailer after it (R186 to R188). -/
theorem crcMatches_of_holds_append {s : State} {region trailer : List Byte} (hw : s.cfg.wf = true)
    (hf : s.Holds (region ++ trailer)) (hlen : trailer.length = 4) :
    crcMatches s = .ok (crc32 s.cfg region == be32 trailer) := by
  obtain ⟨-, -, hwidth⟩ := Cfg.widths_of_wf hw
  obtain ⟨hbuf, -⟩ := id hf
  rw [List.length_append, hlen] at hbuf
  have hregion : s.bufLen - s.cfg.crcWidth = region.length := by omega
  refine crcMatches_eq_ok.mpr ⟨by omega, region, trailer, ?_, ?_, rfl⟩
  · rw [hregion, hf.readRange_slice (by omega), List.drop_zero, List.take_left]
  · rw [hregion, hwidth, hf.readRange_slice (by omega), List.drop_left, ← hlen, List.take_length]

/-- The verifier's two outcomes (R128). -/
theorem crcComplete_of_holds_append {s : State} {region trailer : List Byte} (hw : s.cfg.wf = true)
    (hf : s.Holds (region ++ trailer)) (hlen : trailer.length = 4) :
    crcComplete s = .ok (if crc32 s.cfg region = be32 trailer then s.afterDispatch (region ++ trailer)
      else s.afterDiscard .crcMismatch) := by
  have hverdict := crcMatches_of_holds_append hw hf hlen
  split_ifs with h
  · rw [h, beq_self_eq_true] at hverdict
    exact crcComplete_eq_ok.mpr (.inl ⟨hverdict, dispatchFrame_of_holds hf⟩)
  · rw [beq_false_of_ne h] at hverdict
    exact crcComplete_eq_ok.mpr (.inr ⟨hverdict, rfl⟩)

/-- `BE32` of four bytes is their value, unreduced (R9). -/
theorem toNat_be32_quad (t0 t1 t2 t3 : Byte) :
    (be32 [t0, t1, t2, t3]).toNat = ((t0.toNat * 256 + t1.toNat) * 256 + t2.toNat) * 256 + t3.toNat := by
  have := t0.isLt
  have := t1.isLt
  have := t2.isLt
  have := t3.isLt
  simp only [be32, beNat, List.foldl_cons, List.foldl_nil, BitVec.toNat_ofNat]
  omega

/-- Settles O36. -/
theorem fourthTrailerByteDecidesTheFrame : Obligations.FourthTrailerByteDecidesTheFrame := by
  refine ⟨fun b s hw hroom hne => ?_, fun b t0 t1 t2 s region hw hroom hidx hf => ?_⟩
  · obtain ⟨-, -, hwidth⟩ := Cfg.widths_of_wf hw
    exact finish_eq_next.mpr (stCrc_eq_ok.mpr ⟨hroom, .inl ⟨by omega, rfl⟩⟩)
  · obtain ⟨-, -, hwidth⟩ := Cfg.widths_of_wf hw
    have hholds : State.Holds { s.appended b with crcIdx := s.crcIdx + 1 } (region ++ [t0, t1, t2, b]) := by
      simpa using hf.append b
    rw [exec_stCrc, stCrc_of_last b hroom (by omega),
      crcComplete_of_holds_append (s := { s.appended b with crcIdx := s.crcIdx + 1 }) hw hholds rfl, finish_ok,
      ← toNat_be32_quad]
    exact ⟨fun heq => congrArg _ (if_pos (BitVec.eq_of_toNat_eq heq)),
      fun hne => congrArg _ (if_neg fun heq => hne (congrArg BitVec.toNat heq))⟩

/-! ### Flags and header length inside a frame (R130) -/

/-- What a byte can do to the flags and the header length: leave them, clear them with the frame, or, as the second control-word
byte, write them both from the control word (R130). -/
def State.FlagsKeptOrDecoded (s t : State) : Prop :=
  (t.flags = s.flags ∧ t.hdrLen = s.hdrLen)
  ∨ t.AtReset ∨ t.AtSync
  ∨ (s.state = .readControlWord ∧ s.hdrIdx = 1 ∧ t.hdrLen = hdrlen s.cfg t.flags
    ∧ ∃ cw, t.buf.readRange 0 2 = some cw ∧ t.flags = hamdec s.cfg (be16 cw))

theorem flagsKeptOrDecoded_frameReset (s u : State) : s.FlagsKeptOrDecoded (frameReset u) :=
  .inr (.inl (atReset_frameReset u))

/-- A completion test from a state that still has the two registers of `s`. -/
theorem Completion.flagsKeptOrDecoded {s u t : State} (h : Completion u t) (hflags : u.flags = s.flags)
    (hlen : u.hdrLen = s.hdrLen) : s.FlagsKeptOrDecoded t := by
  cases h with
  | goesOn st => exact .inl ⟨hflags, hlen⟩
  | ends e => exact flagsKeptOrDecoded_frameReset s _

theorem stCw_flagsKeptOrDecoded {b : Byte} {s t : State} (h : stCw b s = .ok t) (hw : s.cfg.wf = true)
    (hs : s.state = .readControlWord) : s.FlagsKeptOrDecoded t := by
  obtain ⟨hcw, -⟩ := Cfg.widths_of_wf hw
  rcases stCw_eq_ok.mp h with ⟨-, rfl⟩ | ⟨-, -, ⟨-, rfl⟩ | ⟨heq, h⟩⟩
  · exact flagsKeptOrDecoded_frameReset s _
  · exact .inl ⟨rfl, rfl⟩
  · obtain ⟨cw, hread, h⟩ := cwComplete_eq_ok.mp h
    rw [hcw] at hread
    cases hdrDone_completion h with
    | goesOn st => exact .inr (.inr (.inr ⟨hs, by omega, rfl, cw, hread, rfl⟩))
    | ends e => exact flagsKeptOrDecoded_frameReset s _

/-- The latch writes the data length only (R124). -/
theorem dlenLatch_flags {s t : State} (h : dlenLatch s = .ok t) : t.flags = s.flags ∧ t.hdrLen = s.hdrLen := by
  rcases dlenLatch_eq_ok.mp h with ⟨-, -, _, -, rfl⟩ | ⟨-, rfl⟩ <;> exact ⟨rfl, rfl⟩

theorem stHdr_flagsKeptOrDecoded {b : Byte} {s t : State} (h : stHdr b s = .ok t) : s.FlagsKeptOrDecoded t := by
  rcases stHdr_eq_ok.mp h with ⟨-, rfl⟩ | ⟨-, -, u, hu, h⟩
  · exact flagsKeptOrDecoded_frameReset s _
  · obtain ⟨hflags, hlen⟩ := dlenLatch_flags hu
    exact (hdrDone_completion h).flagsKeptOrDecoded hflags hlen

theorem stData_flagsKeptOrDecoded {b : Byte} {s t : State} (h : stData b s = .ok t) : s.FlagsKeptOrDecoded t := by
  obtain ⟨-, h⟩ := stData_eq_ok.mp h
  exact (dataDone_completion h).flagsKeptOrDecoded rfl rfl

theorem stCrc_flagsKeptOrDecoded {b : Byte} {s t : State} (h : stCrc b s = .ok t) : s.FlagsKeptOrDecoded t := by
  obtain ⟨-, ⟨-, rfl⟩ | ⟨-, h⟩⟩ := stCrc_eq_ok.mp h
  · exact .inl ⟨rfl, rfl⟩
  · exact (crcComplete_completion h).flagsKeptOrDecoded rfl rfl

theorem passByte_flagsKeptOrDecoded {b : Byte} {s t : State} (h : passByte b s = .ok t) (hw : s.cfg.wf = true) :
    s.FlagsKeptOrDecoded t := by
  rcases passByte_cases h with ⟨-, rfl⟩ | ⟨hs, h⟩ | ⟨-, h⟩ | ⟨-, h⟩ | ⟨-, h⟩
  · exact .inl ⟨rfl, rfl⟩
  · exact stCw_flagsKeptOrDecoded h hw hs
  · exact stHdr_flagsKeptOrDecoded h
  · exact stData_flagsKeptOrDecoded h
  · exact stCrc_flagsKeptOrDecoded h

theorem byteStep_flagsKeptOrDecoded {b : Byte} {s t : State} (h : byteStep b s = .ok t) (hw : s.cfg.wf = true) :
    s.FlagsKeptOrDecoded t := by
  rcases byteStep_cases h with ⟨-, -, h⟩ | ⟨-, -, -, rfl⟩ | ⟨-, -, h⟩ | ⟨-, h⟩
  · exact .inr (.inr (.inl (ldrSync_atSync h)))
  · exact .inl ⟨rfl, rfl⟩
  · exact passByte_flagsKeptOrDecoded (s := { s with run := s.run + 1 }) h hw
  · exact passByte_flagsKeptOrDecoded (s := { s with run := 0 }) h hw

/-- Between two states of a frame with its flags decoded, only the first case is left (R130). -/
theorem State.FlagsKeptOrDecoded.kept {s t : State} (h : s.FlagsKeptOrDecoded t) (hs : s.Decoded) (ht : t.Decoded) :
    t.flags = s.flags ∧ t.hdrLen = s.hdrLen := by
  rcases h with hkept | ⟨hreset, -⟩ | ⟨hsync, -⟩ | ⟨hcw, -⟩
  · exact hkept
  · exact absurd ht (not_decoded_of_findStart hreset)
  · exact absurd ht (not_decoded_of_readControlWord hsync)
  · exact absurd hs (not_decoded_of_readControlWord hcw)

/-- Settles O22. -/
theorem flagsAndHeaderLengthAreImmutableInAFrame : Obligations.FlagsAndHeaderLengthAreImmutableInAFrame := by
  intro s t b rest hi h
  obtain ⟨hw, -⟩ := step_cases h
  have heffect : s.FlagsKeptOrDecoded t :=
    byteStep_flagsKeptOrDecoded (s := { s with input := rest }) (byteStep_of_step hi h) hw
  exact ⟨heffect.kept, heffect⟩

/-! ### The step function (R132) -/

/-- A byte other than the leader that is no stuffing escape is passed with the count cleared (R104, R105). -/
theorem byteStep_of_not_escDrop {s : State} {b : Byte} (hb : b ≠ s.cfg.leader)
    (h : ¬ (b = s.cfg.esc ∧ s.run + 1 = s.cfg.n)) : byteStep b s = passByte b { s with run := 0 } := by
  by_cases he : b = s.cfg.esc
  · exact byteStep_of_ne_leader hb fun hrun => h ⟨he, hrun⟩
  · rw [byteStep, filterOp_literal _ hb he, filterByte, litPass]

/-- Settles O12. -/
theorem byteStepIsTheStepFunction : Obligations.ByteStepIsTheStepFunction := by
  intro s b rest hw hi s0 pass
  obtain ⟨hn, -⟩ := Cfg.bounds_of_wf hw
  have hpass : ∀ r, finish (passByte b { s0 with run := r }) = pass { s0 with run := r } := by
    intro r
    refine (finish_passByte b { s0 with run := r }).trans ?_
    change exec (stateInstr s.state b) _ = _
    unfold pass
    cases s.state <;> rfl
  rw [step_byte hw hi]
  split_ifs with hb hlast hs hesc
  · rw [byteStep_leader_last (s := s0) hb hlast]
    exact finish_eq_next.mpr (ldrSync_eq_ok.mpr (.inl ⟨hs, rfl⟩))
  · rw [byteStep_leader_last (s := s0) hb hlast]
    exact finish_eq_next.mpr (ldrSync_eq_ok.mpr (.inr ⟨hs, rfl⟩))
  · rw [byteStep_leader (s := s0) hb hlast]
    exact hpass _
  · obtain ⟨he, hrun⟩ := hesc
    have hcount : s0.run + 1 = s0.cfg.n := by change s.run + 1 = s.cfg.n; omega
    rw [byteStep_esc_last (s := s0) hw he hcount, finish_ok]
  · have hdrop : ¬ (b = s0.cfg.esc ∧ s0.run + 1 = s0.cfg.n) := fun ⟨he, hrun⟩ =>
      hesc ⟨he, Nat.eq_sub_of_add_eq hrun⟩
    rw [byteStep_of_not_escDrop (s := s0) hb hdrop]
    exact hpass 0

end Sys2Proof.Machine
end

section
/-! The control-word decoder (42_hamming.md): what `HAMDEC` hands over (R150), and what the reference code corrects and its
values on some words (R157). -/

namespace Sys2Proof.Machine

/-! ### The reference code (R157) -/

/-- Settles O38: an error that alone decodes to no flags is corrected, and a single bit is such an error. -/
theorem referenceCodeCorrectsSingleBitErrors : Obligations.ReferenceCodeCorrectsSingleBitErrors := by
  refine ⟨fun f hf => ⟨hamDecodeElp_hamEncode hf, fun i hi => ?_⟩, ?extremes, ?leaderBytes, ?codeWords⟩
  · exact hamDecodeElp_corrects hf (hamDecodeElp_singleBit i hi)
  case extremes => decide
  case leaderBytes => decide
  case codeWords => decide

/-! ### `HAMDEC` (R150) -/

theorem exec_hamdec (s : State) : exec .hamdec s = execHamdec s := rfl

/-- A read of two bytes gives them in address order (R52). -/
theorem Memory.readRange_pair {m : Memory} {a : Nat} {b0 b1 : Byte} (h0 : m.read a = some b0)
    (h1 : m.read (a + 1) = some b1) : m.readRange a 2 = some [b0, b1] := by
  simp only [Memory.readRange, h0, h1]

/-- With the control word in the buffer, `HAMDEC` hands its flags over and writes nothing else (R150, log 5). -/
theorem execHamdec_of_readRange {s : State} {cw : List Byte} (h : s.buf.readRange 0 s.cfg.cwWidth = some cw) :
    execHamdec s = .next { s with ret := some (.flags (hamdec s.cfg (be16 cw))) } := by
  rw [execHamdec, hamdecBuf_eq_ok.mpr ⟨cw, h, rfl⟩]
  rfl

/-- Settles O37. -/
theorem hamdecHandsOverTheDecodedFlags : Obligations.HamdecHandsOverTheDecodedFlags := by
  intro s b0 b1 hw h0 h1
  obtain ⟨hwidth, -⟩ := Cfg.widths_of_wf hw
  have hread : s.buf.readRange 0 s.cfg.cwWidth = some [b0, b1] := by
    rw [hwidth]
    exact Memory.readRange_pair h0 h1
  rw [exec_hamdec, execHamdec_of_readRange hread, be16_pair]

end Sys2Proof.Machine
end

section
/-! The field length resolver (43_resolver.md), R171 to R173. The idea: split the table at a field; its offset is then the control
word and the present part before it, the header length that, the field and the present part after it. -/

namespace Sys2Proof

/-! ### The masks of a legal configuration (R7) -/

/-- The two block flags are single bits inside the flags. -/
theorem Cfg.blockFlags_of_wf {c : Cfg} (h : c.wf = true) :
    singleBit c.flagsW c.fData = true ∧ singleBit c.flagsW c.fCrc = true := by
  simp only [Cfg.wf, Cfg.flagsWf, Bool.and_eq_true] at h
  tauto

/-- The masks of the table are single bits inside the flags, none of them the checksum flag, and no two alike. -/
theorem Cfg.masks_of_wf {c : Cfg} (h : c.wf = true) :
    (∀ f ∈ c.fields, singleBit c.flagsW f.mask = true ∧ f.mask ≠ c.fCrc) ∧ (c.fields.map (·.mask)).Nodup := by
  simp only [Cfg.wf, Cfg.fieldsWf, Bool.and_eq_true, List.all_eq_true, decide_eq_true_eq, bne_iff_ne] at h
  obtain ⟨-, -, -, -, -, ⟨⟨hmasks, hnodup⟩, -⟩, -⟩ := h
  exact ⟨fun f hf => (hmasks f hf).1, hnodup⟩

/-- Around an entry of the table stand entries with other masks. -/
theorem Cfg.mask_ne_of_split {c : Cfg} (hw : c.wf = true) {pre post : List Field} {f : Field}
    (hsplit : c.fields = pre ++ f :: post) : ∀ g ∈ pre ++ post, g.mask ≠ f.mask := by
  obtain ⟨-, hnodup⟩ := Cfg.masks_of_wf hw
  rw [hsplit, List.map_append, List.map_cons, List.nodup_middle, ← List.map_append, List.nodup_cons] at hnodup
  obtain ⟨hnot, -⟩ := hnodup
  exact fun g hg heq => hnot (heq ▸ List.mem_map_of_mem hg)

theorem singleBit_iff {w : Nat} {m : Flags} : singleBit w m = true ↔ ∃ i < w, m = BitVec.twoPow 16 i := by
  have htwoPow : ∀ i, BitVec.ofNat 16 (2 ^ i) = BitVec.twoPow 16 i := fun i =>
    BitVec.eq_of_toNat_eq (by rw [BitVec.toNat_ofNat, BitVec.toNat_twoPow])
  simp only [singleBit, List.any_eq_true, List.mem_range, beq_iff_eq, htwoPow]

/-- Two single bits meet only where they are the same bit. -/
theorem eq_of_singleBit_and_ne_zero {w : Nat} {m k : Flags} (hm : singleBit w m = true) (hk : singleBit w k = true)
    (h : m &&& k ≠ 0) : m = k := by
  obtain ⟨i, -, rfl⟩ := singleBit_iff.mp hm
  obtain ⟨j, -, rfl⟩ := singleBit_iff.mp hk
  rw [BitVec.and_twoPow, BitVec.getLsbD_twoPow] at h
  have hij : i = j := by simp_all
  rw [hij]

theorem ne_zero_of_singleBit {w : Nat} {m : Flags} (hle : w ≤ 16) (h : singleBit w m = true) : m ≠ 0 := by
  obtain ⟨i, hi, rfl⟩ := singleBit_iff.mp h
  have hbit : (BitVec.twoPow 16 i).getLsbD i = true := by simp [BitVec.getLsbD_twoPow]; omega
  intro hzero
  simp [hzero] at hbit

namespace Machine

theorem flagSet_iff {fl m : Flags} : flagSet fl m = true ↔ fl &&& m ≠ 0 := bne_iff_ne

/-- A single bit as the flags marks no entry present but one with that mask. -/
theorem flagSet_eq_false_of_mask_ne {c : Cfg} (hw : c.wf = true) {m : Flags} (hm : singleBit c.flagsW m = true)
    {f : Sys2Proof.Field} (hf : f ∈ c.fields) (hne : f.mask ≠ m) : flagSet m f.mask = false := by
  obtain ⟨hmasks, -⟩ := Cfg.masks_of_wf hw
  obtain ⟨hbit, -⟩ := hmasks f hf
  exact eq_false_of_ne_true fun h => hne (eq_of_singleBit_and_ne_zero hm hbit (flagSet_iff.mp h)).symm

/-! ### The width of a part of the table -/

theorem presentWidth_eq_sum (fl : Flags) (fs : List Sys2Proof.Field) :
    presentWidth fl fs = ((fs.filter (fun f => fl &&& f.mask != 0)).map (·.width)).sum := by
  induction fs with
  | nil => rfl
  | cons f fs ih =>
    rw [presentWidth, ih, List.filter_cons, flagSet]
    split <;> simp

theorem presentWidth_cons_of_flagSet {fl : Flags} {f : Sys2Proof.Field} (h : flagSet fl f.mask = true)
    (fs : List Sys2Proof.Field) : presentWidth fl (f :: fs) = f.width + presentWidth fl fs := by
  rw [presentWidth, if_pos h]

theorem presentWidth_eq_zero {fl : Flags} {fs : List Sys2Proof.Field} (h : ∀ f ∈ fs, flagSet fl f.mask = false) :
    presentWidth fl fs = 0 := by
  induction fs with
  | nil => rfl
  | cons f fs ih =>
    obtain ⟨hf, hfs⟩ := List.forall_mem_cons.mp h
    simp [presentWidth, hf, ih hfs]

theorem presentWidth_le_sum (fl : Flags) (fs : List Sys2Proof.Field) : presentWidth fl fs ≤ (fs.map (·.width)).sum := by
  induction fs with
  | nil => exact le_rfl
  | cons f fs ih =>
    rw [presentWidth, List.map_cons, List.sum_cons]
    split <;> omega

/-- Every byte of the present fields lies in one of them. -/
theorem exists_split_of_lt_presentWidth {fl : Flags} {fs : List Sys2Proof.Field} {x : Nat} (h : x < presentWidth fl fs) :
    ∃ pre f post, fs = pre ++ f :: post ∧ flagSet fl f.mask = true ∧ presentWidth fl pre ≤ x
      ∧ x < presentWidth fl pre + f.width := by
  induction fs generalizing x with
  | nil => simp [presentWidth] at h
  | cons g fs ih =>
    by_cases hin : flagSet fl g.mask = true ∧ x < g.width
    · obtain ⟨hset, hx⟩ := hin
      exact ⟨[], g, fs, rfl, hset, Nat.zero_le x, by simpa [presentWidth] using hx⟩
    · have hfirst : presentWidth fl [g] ≤ x := by
        simp only [presentWidth]
        split <;> simp_all
      have hcons : ∀ gs, presentWidth fl (g :: gs) = presentWidth fl [g] + presentWidth fl gs :=
        presentWidth_append fl [g]
      have hrest : x - presentWidth fl [g] < presentWidth fl fs := by rw [hcons] at h; omega
      obtain ⟨pre, f, post, rfl, hset, hle, hlt⟩ := ih hrest
      exact ⟨g :: pre, f, post, rfl, hset, by rw [hcons]; omega, by rw [hcons]; omega⟩

/-! ### `HDRLEN` (R171) -/

theorem hdrlen_eq {c : Cfg} (hw : c.wf = true) (fl : Flags) : hdrlen c fl = 2 + presentWidth fl c.fields := by
  obtain ⟨hcw, -⟩ := Cfg.widths_of_wf hw
  rw [hdrlen, hcw]

theorem hdrlen_of_none_present {c : Cfg} (hw : c.wf = true) {fl : Flags}
    (h : ∀ f ∈ c.fields, flagSet fl f.mask = false) : hdrlen c fl = 2 := by
  rw [hdrlen_eq hw, presentWidth_eq_zero h]

/-- The header length at a present field: the control word, what stands before it, the field, what stands after it. -/
theorem hdrlen_of_split {c : Cfg} (hw : c.wf = true) {pre post : List Sys2Proof.Field} {f : Sys2Proof.Field}
    (hsplit : c.fields = pre ++ f :: post) {fl : Flags} (h : flagSet fl f.mask = true) :
    hdrlen c fl = 2 + (presentWidth fl pre + (f.width + presentWidth fl post)) := by
  rw [hdrlen_eq hw, hsplit, presentWidth_append, presentWidth_cons_of_flagSet h]

theorem hdrlen_fData {c : Cfg} (hw : c.wf = true) : hdrlen c c.fData = 4 := by
  obtain ⟨f, rest, hsplit, hmask, hwidth⟩ := exists_dataField hw
  obtain ⟨hbit, -⟩ := Cfg.blockFlags_of_wf hw
  obtain ⟨-, -, -, hflagsW⟩ := Cfg.bounds_of_wf hw
  have habsent : ∀ g ∈ fieldsBefore c.fData c.fields ++ rest, flagSet c.fData g.mask = false := fun g hg =>
    have hmem : g ∈ c.fields := by rw [hsplit]; exact List.perm_middle.mem_iff.mpr (List.mem_cons_of_mem f hg)
    flagSet_eq_false_of_mask_ne hw hbit hmem (hmask ▸ Cfg.mask_ne_of_split hw hsplit g hg)
  obtain ⟨hbefore, hrest⟩ := List.forall_mem_append.mp habsent
  have hpresent : flagSet c.fData f.mask = true := by
    rw [hmask, flagSet_iff, BitVec.and_self]
    exact ne_zero_of_singleBit hflagsW hbit
  rw [hdrlen_of_split hw hsplit hpresent, presentWidth_eq_zero hbefore, presentWidth_eq_zero hrest, hwidth]

/-- Settles O40. -/
theorem headerLengthSumsThePresentFields : Obligations.HeaderLengthSumsThePresentFields := by
  refine ⟨fun c fl hw => by rw [hdrlen_eq hw, presentWidth_eq_sum], fun c hw => ⟨?noFlag, ?checksum, hdrlen_fData hw⟩⟩
  case noFlag => exact hdrlen_of_none_present hw fun f _ => by simp [flagSet]
  case checksum =>
    obtain ⟨-, hbit⟩ := Cfg.blockFlags_of_wf hw
    obtain ⟨hmasks, -⟩ := Cfg.masks_of_wf hw
    exact hdrlen_of_none_present hw fun f hf => flagSet_eq_false_of_mask_ne hw hbit hf (hmasks f hf).2

theorem exec_hdrlen (s : State) :
    exec .hdrlen s = .next { s with ret := some (.length (hdrlen s.cfg s.flags)) } := rfl

/-- Settles O41. -/
theorem hdrlenHandsOverTheHeaderLength : Obligations.HdrlenHandsOverTheHeaderLength := by
  intro s hw
  rw [exec_hdrlen, hdrlen_eq hw, presentWidth_eq_sum]

/-! ### `FLDOFF` (R172, R173) -/

theorem fieldsBefore_append_cons {pre : List Sys2Proof.Field} {f : Sys2Proof.Field} (h : ∀ g ∈ pre, g.mask ≠ f.mask)
    (post : List Sys2Proof.Field) : fieldsBefore f.mask (pre ++ f :: post) = pre := by
  rw [fieldsBefore, List.takeWhile_append_of_pos (by simpa using h), List.takeWhile_cons_of_neg (by simp),
    List.append_nil]

/-- The offset of a present field: the control word and what stands before it. -/
theorem fldoff_of_split {c : Cfg} (hw : c.wf = true) {pre post : List Sys2Proof.Field} {f : Sys2Proof.Field}
    (hsplit : c.fields = pre ++ f :: post) {fl : Flags} (h : flagSet fl f.mask = true) :
    fldoff c fl f.mask = 2 + presentWidth fl pre := by
  obtain ⟨hcw, -⟩ := Cfg.widths_of_wf hw
  obtain ⟨hpre, -⟩ := List.forall_mem_append.mp (Cfg.mask_ne_of_split hw hsplit)
  have hpresent : fieldPresent c fl f.mask = true := by simp [fieldPresent, h, hsplit]
  rw [fldoff, if_pos hpresent, hcw, hsplit, fieldsBefore_append_cons hpre]

theorem exec_fldoff (m : Flags) (s : State) :
    exec (.fldoff m) s = .next { s with ret := some (.offset (fldoff s.cfg s.flags m)) } := rfl

/-- Settles O42. -/
theorem fldoffHandsOverTheOffset : Obligations.FldoffHandsOverTheOffset := by
  refine ⟨fun s pre post f hw hsplit _ hset => ?_, fun s m => ⟨_, exec_fldoff m s⟩⟩
  rw [exec_fldoff, fldoff_of_split hw hsplit (flagSet_iff.mpr hset), presentWidth_eq_sum]

/-- Settles O43: split the table at the field, at two fields, or at the field that a byte of the header lies in. -/
theorem presentFieldsTileTheHeader : Obligations.PresentFieldsTileTheHeader := by
  intro c fl hw
  refine ⟨fun f hf hset => ?inside, fun pre mid post f g hsplit hf hg => ?disjoint, fun x hx hlt => ?cover,
    fldoff_fData_add_two_le_hdrlen hw⟩
  case inside =>
    obtain ⟨pre, post, hsplit⟩ := List.append_of_mem hf
    rw [fldoff_of_split hw hsplit hset, hdrlen_of_split hw hsplit hset]
    omega
  case disjoint =>
    have hfirst : c.fields = pre ++ f :: (mid ++ g :: post) := by rw [hsplit, List.append_assoc, List.cons_append]
    rw [fldoff_of_split hw hfirst hf, fldoff_of_split hw hsplit hg, presentWidth_append, presentWidth_cons_of_flagSet hf]
    omega
  case cover =>
    rw [hdrlen_eq hw] at hlt
    have hlt' : x - 2 < presentWidth fl c.fields := by omega
    obtain ⟨pre, f, post, hsplit, hset, hle, hin⟩ := exists_split_of_lt_presentWidth hlt'
    have hmem : f ∈ c.fields := by rw [hsplit]; simp
    refine ⟨f, hmem, hset, ?_⟩
    rw [fldoff_of_split hw hsplit hset]
    omega

end Machine

end Sys2Proof
end

section
/-! The header bound under the reference table (R174, R175). The idea: say what a byte can add to the events, with the bound only
at a full header (`ByteEvents`); where the header fits `MAX_HDR` no good state has a full header and a header byte to come. -/

namespace Sys2Proof.Machine

/-! ### The events of one byte (R220, R222) -/

/-- The next byte is one of the header's, and the header index stands at the bound (R122, R123). -/
def State.HeaderFull (s : State) : Prop :=
  (s.state = .readControlWord ∨ s.state = .readHeader) ∧ s.cfg.maxHdr ≤ s.hdrIdx

/-- What a byte can add to the events: nothing, a hand-off, or a discard, which is for the header bound only where `full`
holds (R220, R222). -/
inductive ByteEvents (full : Prop) (before : List Event) : List Event → Prop where
  | silent : ByteEvents full before before
  | handsOver (frame : List Byte) (fl : Flags) (hl : Nat) (dl : Word16) :
      ByteEvents full before (before ++ [.dispatch frame fl hl dl])
  | discards (cause : DiscardCause) (st : ParseState) (len : Nat) (hbound : cause = .hdrBound → full) :
      ByteEvents full before (before ++ [.diag cause.toCause st len])

theorem ByteEvents.imp {full' : Prop} {before after : List Event} (h : ByteEvents full before after)
    (himp : full → full') : ByteEvents full' before after := by
  cases h with
  | silent => exact .silent
  | handsOver frame fl hl dl => exact .handsOver frame fl hl dl
  | discards cause st len hbound => exact .discards cause st len fun hc => himp (hbound hc)

section
variable {full : Prop} {b : Byte} {s t : State}

theorem dispatchFrame_byteEvents (h : dispatchFrame s = .ok t) : ByteEvents full s.events t.events := by
  obtain ⟨frame, -, rfl⟩ := dispatchFrame_eq_ok.mp h
  exact .handsOver frame s.flags s.hdrLen s.dataLen

theorem dataDone_byteEvents (h : dataDone s = .ok t) : ByteEvents full s.events t.events := by
  rcases dataDone_eq_ok.mp h with ⟨-, rfl⟩ | ⟨-, -, rfl⟩ | ⟨-, -, h⟩
  · exact .silent
  · exact .silent
  · exact dispatchFrame_byteEvents h

theorem hdrDone_byteEvents (h : hdrDone s = .ok t) : ByteEvents full s.events t.events := by
  rcases hdrDone_eq_ok.mp h with ⟨-, rfl⟩ | ⟨-, -, h⟩ | ⟨-, -, -, rfl⟩ | ⟨-, -, -, h⟩
  · exact .silent
  · exact dataDone_byteEvents (s := { s with state := .readData }) h
  · exact .silent
  · exact dispatchFrame_byteEvents h

theorem crcComplete_byteEvents (h : crcComplete s = .ok t) : ByteEvents full s.events t.events := by
  rcases crcComplete_eq_ok.mp h with ⟨-, h⟩ | ⟨-, rfl⟩
  · exact dispatchFrame_byteEvents h
  · exact .discards .crcMismatch s.state s.bufLen nofun

theorem stCw_byteEvents (h : stCw b s = .ok t) : ByteEvents (s.cfg.maxHdr ≤ s.hdrIdx) s.events t.events := by
  rcases stCw_eq_ok.mp h with ⟨hfull, rfl⟩ | ⟨-, -, ⟨-, rfl⟩ | ⟨-, h⟩⟩
  · exact .discards .hdrBound s.state s.bufLen fun _ => hfull
  · exact .silent
  · obtain ⟨_, -, h⟩ := cwComplete_eq_ok.mp h
    exact (hdrDone_byteEvents h :)

theorem stHdr_byteEvents (h : stHdr b s = .ok t) : ByteEvents (s.cfg.maxHdr ≤ s.hdrIdx) s.events t.events := by
  rcases stHdr_eq_ok.mp h with ⟨hfull, rfl⟩ | ⟨-, -, u, hu, h⟩
  · exact .discards .hdrBound s.state s.bufLen fun _ => hfull
  · have hevents : u.events = s.events := (dlenLatch_sameBytes hu).events_eq
    exact hevents ▸ hdrDone_byteEvents h

theorem stData_byteEvents (h : stData b s = .ok t) : ByteEvents full s.events t.events := by
  obtain ⟨-, h⟩ := stData_eq_ok.mp h
  exact (dataDone_byteEvents h :)

theorem stCrc_byteEvents (h : stCrc b s = .ok t) : ByteEvents full s.events t.events := by
  obtain ⟨-, ⟨-, rfl⟩ | ⟨-, h⟩⟩ := stCrc_eq_ok.mp h
  · exact .silent
  · exact (crcComplete_byteEvents h :)

theorem passByte_byteEvents (h : passByte b s = .ok t) : ByteEvents s.HeaderFull s.events t.events := by
  rcases passByte_cases h with ⟨-, rfl⟩ | ⟨hs, h⟩ | ⟨hs, h⟩ | ⟨-, h⟩ | ⟨-, h⟩
  · exact .silent
  · exact (stCw_byteEvents h).imp fun hfull => ⟨.inl hs, hfull⟩
  · exact (stHdr_byteEvents h).imp fun hfull => ⟨.inr hs, hfull⟩
  · exact stData_byteEvents h
  · exact stCrc_byteEvents h

theorem ldrSync_byteEvents (h : ldrSync b s = .ok t) : ByteEvents full s.events t.events := by
  rcases ldrSync_eq_ok.mp h with ⟨-, rfl⟩ | ⟨-, rfl⟩
  · exact .silent
  · exact .discards .resync s.state s.bufLen nofun

/-- One byte, from every state: the count of leader bytes has no part in its events. -/
theorem byteStep_byteEvents (h : byteStep b s = .ok t) : ByteEvents s.HeaderFull s.events t.events := by
  rcases byteStep_cases h with ⟨-, -, h⟩ | ⟨-, -, -, rfl⟩ | ⟨-, -, h⟩ | ⟨-, h⟩
  · exact ldrSync_byteEvents h
  · exact .silent
  · exact passByte_byteEvents (s := { s with run := s.run + 1 }) h
  · exact passByte_byteEvents (s := { s with run := 0 }) h

end

/-- Only a full header raises the bound. -/
theorem ByteEvents.ne_hdrBound {full : Prop} {before after : List Event} (h : ByteEvents full before after)
    (hnot : ¬ full) (st : ParseState) (len : Nat) : after ≠ before ++ [.diag .hdrBound st len] := by
  cases h with
  | silent => simp
  | handsOver frame fl hl dl => simp
  | discards cause st' len' hbound =>
    cases cause with
    | resync => simp [DiscardCause.toCause]
    | hdrBound => exact absurd (hbound rfl) hnot
    | crcMismatch => simp [DiscardCause.toCause]

/-! ### Headers that fit (R174, R175) -/

/-- Where a header of the flags at hand fits, a good state is never at the bound: a header byte still to come lies inside it. -/
theorem not_headerFull_of_hdrlen_le {s : State} (hw : s.cfg.wf = true) (hinv : s.Inv)
    (hfits : hdrlen s.cfg s.flags ≤ s.cfg.maxHdr) : ¬ s.HeaderFull := by
  rintro ⟨hs | hs, hfull⟩
  · obtain ⟨-, hmax, -⟩ := Cfg.bounds_of_wf hw
    obtain ⟨-, hidx, hlen, -⟩ := (inv_iff_of_readControlWord hs).mp hinv
    omega
  · obtain ⟨hh, hne⟩ := (inv_iff_of_readHeader hs).mp hinv
    obtain ⟨hlen, -⟩ := hh.resolved
    have hle := hh.le_hdrLen
    omega

theorem hdrlen_le_of_fieldsElp {c : Cfg} (hw : c.wf = true) (hfields : c.fields = fieldsElp) (fl : Flags) :
    hdrlen c fl ≤ 22 := by
  have hle : presentWidth fl fieldsElp ≤ 20 := presentWidth_le_sum fl fieldsElp
  rw [hdrlen_eq hw, hfields]
  omega

/-- Settles O44. -/
theorem headerBoundIsUnreachableWithTheReferenceFields : Obligations.HeaderBoundIsUnreachableWithTheReferenceFields := by
  refine ⟨fun c fl hw hfields => hdrlen_le_of_fieldsElp hw hfields fl, fun s t b rest hfields hmax hinv hi h => ?_⟩
  obtain ⟨hw, -⟩ := step_cases h
  have hfits : hdrlen s.cfg s.flags ≤ s.cfg.maxHdr := (hdrlen_le_of_fieldsElp hw hfields s.flags).trans hmax
  exact (byteStep_byteEvents (byteStep_of_step hi h)).ne_hdrBound
    (not_headerFull_of_hdrlen_le (s := { s with input := rest }) hw hinv hfits)

end Sys2Proof.Machine
end

section
/-! The checksum verifier (44_crc.md): what `CRCCHK` hands over (R188), and that the reference CRC tells apart two sequences
that differ in one byte (R190). The idea for the second: a shift of the register loses nothing, for the bit shifted out decides the
polynomial's top bit, which the shift itself leaves clear; so from the byte in which two sequences differ on, the registers
differ. -/

namespace Sys2Proof.Machine

/-! ### `CRCCHK` (R185 to R188) -/

theorem exec_crcchk (s : State) : exec .crcchk s = execCrcchk s := rfl

theorem execCrcchk_of_crcMatches {s : State} {ok : Bool} (h : crcMatches s = .ok ok) :
    execCrcchk s = .next { s with ret := some (.verdict ok) } := by
  rw [execCrcchk, h]
  rfl

/-- Settles O45. -/
theorem crcchkComparesTheTrailer : Obligations.CrcchkComparesTheTrailer := by
  intro s region t0 t1 t2 t3 hw hholds
  rw [exec_crcchk, execCrcchk_of_crcMatches (crcMatches_of_holds_append hw hholds rfl), ← toNat_be32_quad, beq_eq_decide]
  simp only [BitVec.toNat_inj]

/-! ### The reference CRC (R189) -/

/-- Settles O46. -/
theorem referenceCrcValues : Obligations.ReferenceCrcValues := by
  unfold Obligations.ReferenceCrcValues
  decide +kernel

/-- The bit shifted out comes back as the top bit (R189). -/
theorem crcShift_topBit (c : Word32) : (crcShift c).getLsbD 31 = c.getLsbD 0 := by
  cases hlow : c.getLsbD 0 with
  | true => rw [crcShift, if_pos hlow]; simp
  | false => rw [crcShift, if_neg (ne_true_of_eq_false hlow)]; simp

theorem crcShift_injective : Function.Injective crcShift := by
  intro c d h
  have hlow : c.getLsbD 0 = d.getLsbD 0 := by rw [← crcShift_topBit, h, crcShift_topBit]
  have hhigh : c >>> 1 = d >>> 1 := by
    simp only [crcShift, hlow] at h
    split at h
    · exact (BitVec.xor_left_inj _).mp h
    · exact h
  refine BitVec.eq_of_getLsbD_eq fun i _ => ?_
  cases i with
  | zero => exact hlow
  | succ i => simpa [Nat.add_comm] using congrArg (BitVec.getLsbD · i) hhigh

/-- A byte is XORed in and shifted through, and the shifts lose nothing. -/
theorem crcByte_eq_iff {c d : Word32} {a b : Byte} :
    crcByte c a = crcByte d b ↔ c ^^^ a.setWidth 32 = d ^^^ b.setWidth 32 :=
  (crcShift_injective.iterate 8).eq_iff

theorem foldl_crcByte_injective (bs : List Byte) : Function.Injective fun c : Word32 => bs.foldl crcByte c := by
  induction bs with
  | nil => exact Function.injective_id
  | cons b bs ih => exact fun c d h => (BitVec.xor_left_inj _).mp (crcByte_eq_iff.mp (ih h))

/-- Settles O47. -/
theorem referenceCrcDetectsAnyOneByteChange : Obligations.ReferenceCrcDetectsAnyOneByteChange := by
  intro pre post b b' hne h
  simp only [crc32Iso, List.foldl_append, List.foldl_cons, BitVec.xor_left_inj] at h
  have hbyte := foldl_crcByte_injective post h
  have hwide : b.setWidth 32 = b'.setWidth 32 := (BitVec.xor_right_inj _).mp (crcByte_eq_iff.mp hbyte)
  exact hne (by simpa using congrArg (BitVec.setWidth 8) hwide)

end Sys2Proof.Machine
end

section
/-! A frame with one changed byte is discarded (R190). The idea: with the trailer of the frame as sent, the changed frame still
has a decoded shape, so the block takes it to its last byte as it would take any frame; that byte finds the block in `ReadChecksum`
with three trailer bytes taken, and the verdict is the comparison of two different checksums. -/

namespace Sys2Proof.Machine

/-! ### The shape of a frame with another trailer -/

theorem DecodedShape.length_eq_add {c : Cfg} {frame : List Byte} {fl : Flags} {hl : Nat} {dl : Word16}
    (h : DecodedShape c frame fl hl dl) : frame.length = hl + dl.toNat + (if flagSet fl c.fCrc then 4 else 0) := by
  rw [h.length_eq]
  cases hhas : flagSet fl c.fData with
  | false => simp [h.dataLen_zero hhas]
  | true => rfl

/-- Of what stands after the header, the shape asks the length only. -/
theorem DecodedShape.of_header_append {c : Cfg} {front back back' : List Byte} {fl : Flags} {hl : Nat} {dl : Word16}
    (hw : c.wf = true) (h : DecodedShape c (front ++ back) fl hl dl) (hheader : hl ≤ front.length)
    (hlen : back'.length = back.length) : DecodedShape c (front ++ back') fl hl dl := by
  have htwo := h.two_le_hdrLen hw
  refine ⟨?_, h.hdrLen_eq, h.le_maxHdr, h.dataLen_zero, fun hhas => ?_, ?_⟩
  · rw [h.flags_eq, List.take_append_of_le_length (by omega), List.take_append_of_le_length (by omega)]
  · have hin := fldoff_fData_add_two_le_hdrlen hw hhas
    rw [← h.hdrLen_eq] at hin
    rw [h.dataLen_eq hhas, slice_append (by omega), slice_append (by omega)]
  · rw [← h.length_eq, List.length_append, List.length_append, hlen]

/-- Header and data as R84 says, and any four bytes for the trailer. -/
theorem contentBody_append_decodedShape {c : Cfg} {cw : Word16} {fl : Flags} (vals : String → Nat) {data trailer : List Byte}
    (hw : c.wf = true) (hcw : hamdec c cw = fl) (hmax : hdrlen c fl ≤ c.maxHdr) (hdata : data.length ≤ 65535)
    (hcrc : flagSet fl c.fCrc = true) (htrailer : trailer.length = 4) :
    DecodedShape c (contentBody c cw fl vals data ++ trailer) fl (hdrlen c fl)
      (if flagSet fl c.fData then BitVec.ofNat 16 data.length else 0) := by
  have hsent := (content_deliverable vals hw hcw hmax hdata).toDecodedShape
  rw [content, if_pos hcrc] at hsent
  refine hsent.of_header_append hw ?_ (htrailer.trans (length_beBytes 4 _).symm)
  rw [length_contentBody hw]
  exact Nat.le_add_right _ _

section
variable {idle s : State} {taken : List Byte} {fl : Flags} {hl : Nat} {dl : Word16}

/-! ### Up to the last byte -/

/-- A passed byte that is not the last of a frame leaves the block in the frame: it could end only a frame of the decoded
shape, and that would be the whole of the arriving one. -/
theorem State.Taking.passByte_goesOn {rest : List Byte} {b : Byte} (h : s.Taking idle taken) (hw : idle.cfg.wf = true)
    (hf : DecodedShape idle.cfg (taken ++ [b] ++ rest) fl hl dl) (hrest : rest ≠ []) :
    ∃ t, passByte b s = .ok t ∧ t.Taking idle (taken ++ [b]) ∧ t.run = s.run := by
  have hws : s.cfg.wf = true := h.cfg_eq ▸ hw
  obtain ⟨t, ht⟩ : ∃ t, passByte b s = .ok t := passByte_run_completes b s.run hws h.inv
  have hnotWhole : ∀ u : State, (s.appended b).SameBytes u → ¬ u.Whole := fun u hsame hwhole => by
    have hcfg : u.cfg = idle.cfg := hsame.cfg_eq.trans h.cfg_eq
    obtain ⟨hnil, -⟩ := hf.eq_of_append hw (hcfg ▸ hwhole.decodedShape (hcfg ▸ hw) (hsame.holds (h.holds.append b)))
    exact hrest hnil
  rcases passByte_progress ht hws h.inv h.latched h.inFrame with ⟨hd, hbound, -⟩ | hp
  · obtain ⟨-, hhl⟩ := h.decoded_eq (rest := [b] ++ rest) hw (by simpa using hf) hd
    have := hf.le_maxHdr
    rw [h.cfg_eq, hhl] at hbound
    omega
  · cases hp with
    | goesOn hsame hframe =>
      exact ⟨t, ht, ⟨passByte_inv ht hws h.inv, passByte_latched ht hws h.inv h.latched, hframe,
        hsame.holds (h.holds.append b), hsame.frameReset_eq.trans h.frameReset_eq⟩, hsame.run_eq⟩
    | handsOver hsame hwhole _ => exact absurd hwhole (hnotWhole _ hsame)
    | mismatches hsame hwhole _ _ => exact absurd hwhole (hnotWhole _ hsame)

/-- The same byte through the filter, with the escape that the sender may have stuffed after it. -/
theorem State.Taking.ingest_stuffFrom_cons {rest : List Byte} {b : Byte} (h : s.Taking idle taken) (hw : idle.cfg.wf = true)
    (hrun : s.run + 1 < idle.cfg.n) (hf : DecodedShape idle.cfg (taken ++ [b] ++ rest) fl hl dl) (hrest : rest ≠ []) :
    ∃ t, t.Taking idle (taken ++ [b]) ∧ t.run + 1 < idle.cfg.n ∧
      ingest (stuffFrom idle.cfg s.run (b :: rest)) s = ingest (stuffFrom idle.cfg t.run rest) t := by
  obtain ⟨hn, -⟩ := Cfg.bounds_of_wf hw
  have hcfg := h.cfg_eq
  have hnosync : s.run + 1 ≠ s.cfg.n := hcfg ▸ hrun.ne
  rw [stuffFrom]
  split_ifs with hb hlast
  · obtain ⟨t, ht, htaking, htrun⟩ := (h.setRun hrun).passByte_goesOn hw hf hrest
    have htcfg := htaking.cfg_eq
    have hfull : t.run + 1 = t.cfg.n := by rw [htrun, htcfg]; exact hlast
    refine ⟨{ t with run := 0 }, htaking.setRun (by omega), by simp only; omega, ?_⟩
    rw [ingest, byteStep_leader (hcfg ▸ hb) hnosync, ht, res_ok_bind, ingest,
      byteStep_esc_last (htcfg ▸ hw) (htcfg ▸ rfl) hfull, res_ok_bind]
  · obtain ⟨t, ht, htaking, htrun⟩ := (h.setRun hrun).passByte_goesOn hw hf hrest
    refine ⟨t, htaking, by rw [htrun]; simp only; omega, ?_⟩
    rw [ingest, byteStep_leader (hcfg ▸ hb) hnosync, ht, res_ok_bind, htrun]
  · obtain ⟨t, ht, htaking, htrun⟩ := (h.setRun (r := 0) (by omega)).passByte_goesOn hw hf hrest
    refine ⟨t, htaking, by rw [htrun]; simp only; omega, ?_⟩
    rw [ingest, byteStep_of_ne_leader (hcfg ▸ hb) hnosync, ht, res_ok_bind, htrun]

/-- All bytes of a frame but the last. -/
theorem State.Taking.ingest_stuffFrom_append {front back : List Byte} (h : s.Taking idle taken) (hw : idle.cfg.wf = true)
    (hrun : s.run + 1 < idle.cfg.n) (hf : DecodedShape idle.cfg (taken ++ front ++ back) fl hl dl) (hback : back ≠ []) :
    ∃ t, t.Taking idle (taken ++ front) ∧ t.run + 1 < idle.cfg.n ∧
      ingest (stuffFrom idle.cfg s.run (front ++ back)) s = ingest (stuffFrom idle.cfg t.run back) t := by
  induction front generalizing taken s with
  | nil => exact ⟨s, by simpa using h, hrun, rfl⟩
  | cons b front ih =>
    obtain ⟨u, hu, hurun, hstep⟩ := h.ingest_stuffFrom_cons (b := b) (rest := front ++ back) hw hrun (by simpa using hf)
      (List.append_ne_nil_of_right_ne_nil _ hback)
    obtain ⟨t, ht, htrun, hgo⟩ := ih hu hurun (by simpa using hf)
    exact ⟨t, by simpa using ht, htrun, hstep.trans hgo⟩

/-! ### The last byte -/

/-- The verifier's negative outcome (R128). -/
theorem crcComplete_of_mismatch {region trailer : List Byte} (hw : s.cfg.wf = true) (hf : s.Holds (region ++ trailer))
    (htrailer : trailer.length = 4) (hne : crc32 s.cfg region ≠ be32 trailer) :
    crcComplete s = .ok (s.afterDiscard .crcMismatch) := by
  rw [crcComplete_of_holds_append hw hf htrailer, if_neg hne]

/-- The last byte of a checksummed frame finds the block in `ReadChecksum`, three trailer bytes taken (R128). -/
theorem State.Taking.atLastTrailerByte {b : Byte} (h : s.Taking idle taken) (hw : idle.cfg.wf = true)
    (hf : DecodedShape idle.cfg (taken ++ [b]) fl hl dl) (hcrc : flagSet fl idle.cfg.fCrc = true) :
    s.state = .readChecksum ∧ s.crcIdx = 3 := by
  have hframe := hf.length_eq_add
  have htwo := hf.two_le_hdrLen hw
  obtain ⟨hlen, -⟩ := h.holds
  rw [if_pos hcrc, List.length_append, List.length_singleton, hlen] at hframe
  cases hs : s.state with
  | findStart => exact absurd hs h.inFrame
  | readControlWord =>
    obtain ⟨-, -, hone, -⟩ := (inv_iff_of_readControlWord hs).mp h.inv
    omega
  | readHeader =>
    obtain ⟨-, hhl⟩ := h.decoded_eq hw hf (.inl hs)
    obtain ⟨hh, -⟩ := (inv_iff_of_readHeader hs).mp h.inv
    have := hh.le_hdrLen
    have := hh.hdrIdx_eq
    omega
  | readData =>
    obtain ⟨-, hhl⟩ := h.decoded_eq hw hf (.inr (.inl hs))
    obtain ⟨hdat, -⟩ := (inv_iff_of_readData hs).mp h.inv
    have hdl := h.dataLen_eq hw hf (.inr (.inl hs)) hdat.hdrIdx_eq
    have := hdat.le_dataLen
    have := hdat.bufLen_eq
    rw [← hdl] at hframe
    omega
  | readChecksum =>
    obtain ⟨-, hhl⟩ := h.decoded_eq hw hf (.inr (.inr hs))
    have hchk := (inv_iff_of_readChecksum hs).mp h.inv
    have hdl := h.dataLen_eq hw hf (.inr (.inr hs)) hchk.hdrIdx_eq
    have := hchk.bufLen_eq
    rw [← hdl] at hframe
    exact ⟨rfl, by omega⟩

/-- The last byte of a frame whose trailer is not the checksum of what stands before it: `CRC_MISMATCH` (R128, R222). -/
theorem State.Taking.passByte_mismatch {b : Byte} {region trailer : List Byte} (h : s.Taking idle taken)
    (hw : idle.cfg.wf = true) (hf : DecodedShape idle.cfg (taken ++ [b]) fl hl dl) (hcrc : flagSet fl idle.cfg.fCrc = true)
    (hsplit : taken ++ [b] = region ++ trailer) (htrailer : trailer.length = 4) (hne : crc32 idle.cfg region ≠ be32 trailer) :
    passByte b s = .ok (emit (.diag .crcMismatch .readChecksum (region.length + 4)) idle) := by
  have hws : s.cfg.wf = true := h.cfg_eq ▸ hw
  obtain ⟨hs, hidx⟩ := h.atLastTrailerByte hw hf hcrc
  obtain ⟨-, hroom⟩ := bufferStaysWithinCapacity s hws h.inv
  obtain ⟨-, -, hwidth⟩ := Cfg.widths_of_wf hws
  have hholds : State.Holds { s.appended b with crcIdx := s.crcIdx + 1 } (region ++ trailer) := hsplit ▸ h.holds.append b
  have hlen : (s.appended b).bufLen = region.length + 4 := by
    obtain ⟨hbuf, -⟩ := hholds
    rw [← htrailer, ← List.length_append]
    exact hbuf.symm
  have hpass : passByte b s = stCrc b s := by rw [passByte, hs]
  have hne' : crc32 s.cfg region ≠ be32 trailer := h.cfg_eq ▸ hne
  rw [hpass, stCrc_of_last b hroom (by omega), crcComplete_of_mismatch (s := { s.appended b with crcIdx := s.crcIdx + 1 })
    hws hholds htrailer hne', ← h.frameReset_eq, ← hlen, ← hs]
  rfl

theorem ingest_esc_of_atReset {s : State} (hw : s.cfg.wf = true) (h : s.AtReset) : ingest [s.cfg.esc] s = .ok s := by
  rw [ingest, byteStep_atReset hw h (Cfg.esc_ne_leader_of_wf hw), res_ok_bind, ingest]

/-- The same byte through the filter; an escape stuffed after it finds the block at reset. -/
theorem State.Taking.ingest_stuffFrom_mismatch {b : Byte} {region trailer : List Byte} (h : s.Taking idle taken)
    (hw : idle.cfg.wf = true) (hrun : s.run + 1 < idle.cfg.n) (hf : DecodedShape idle.cfg (taken ++ [b]) fl hl dl)
    (hcrc : flagSet fl idle.cfg.fCrc = true) (hsplit : taken ++ [b] = region ++ trailer) (htrailer : trailer.length = 4)
    (hne : crc32 idle.cfg region ≠ be32 trailer) :
    ingest (stuffFrom idle.cfg s.run [b]) s = .ok (emit (.diag .crcMismatch .readChecksum (region.length + 4)) idle) := by
  have hcfg := h.cfg_eq
  have hnosync : s.run + 1 ≠ s.cfg.n := hcfg ▸ hrun.ne
  have hpass : ∀ r < idle.cfg.n, passByte b { s with run := r }
      = .ok (emit (.diag .crcMismatch .readChecksum (region.length + 4)) idle) :=
    fun r hr => (h.setRun hr).passByte_mismatch hw hf hcrc hsplit htrailer hne
  simp only [stuffFrom]
  split_ifs with hb hlast
  · have hreset : idle.AtReset := h.frameReset_eq ▸ atReset_frameReset s
    rw [ingest, byteStep_leader (hcfg ▸ hb) hnosync, hpass _ hrun, res_ok_bind]
    exact ingest_esc_of_atReset (s := emit _ idle) hw hreset
  · rw [ingest, byteStep_leader (hcfg ▸ hb) hnosync, hpass _ hrun, res_ok_bind, ingest]
  · rw [ingest, byteStep_of_ne_leader (hcfg ▸ hb) hnosync, hpass 0 (by omega), res_ok_bind, ingest]

end

/-! ### From the leader to the discard -/

/-- The leader of a frame syncs a block at reset (R84, R109). -/
theorem ingest_leaders_of_atReset {s : State} (hw : s.cfg.wf = true) (h : s.AtReset) :
    ingest (List.replicate s.cfg.n s.cfg.leader) s = .ok { frameReset s with state := .readControlWord } := by
  obtain ⟨hn, -⟩ := Cfg.bounds_of_wf hw
  obtain ⟨hs, hrun, -⟩ := h
  have hcount : s.cfg.n - 1 + 1 = s.cfg.n := by omega
  simpa only [hcount] using ingest_leaders (k := s.cfg.n - 1) hs (by omega)

/-- A checksummed frame whose trailer is not its checksum, stuffed and behind its leader, is discarded and leaves the block at
reset. -/
theorem ingest_mismatch {s : State} {region trailer : List Byte} {fl : Flags} {hl : Nat} {dl : Word16}
    (hw : s.cfg.wf = true) (h : s.AtReset) (hf : DecodedShape s.cfg (region ++ trailer) fl hl dl)
    (hcrc : flagSet fl s.cfg.fCrc = true) (htrailer : trailer.length = 4) (hne : crc32 s.cfg region ≠ be32 trailer) :
    ingest (List.replicate s.cfg.n s.cfg.leader ++ stuff s.cfg (region ++ trailer)) s
      = .ok (emit (.diag .crcMismatch .readChecksum (region.length + 4)) s) := by
  obtain ⟨hn, -⟩ := Cfg.bounds_of_wf hw
  obtain ⟨front, b, hsplit⟩ : ∃ front b, region ++ trailer = front ++ [b] :=
    (List.eq_nil_or_concat' _).resolve_left (List.append_ne_nil_of_right_ne_nil _ (by rintro rfl; cases htrailer))
  rw [hsplit] at hf
  obtain ⟨t, ht, htrun, hgo⟩ := (taking_nil_of_atReset hw h).ingest_stuffFrom_append hw hn hf (List.cons_ne_nil b [])
  rw [ingest_append, ingest_leaders_of_atReset hw h, res_ok_bind, stuff, hsplit]
  exact hgo.trans (ht.ingest_stuffFrom_mismatch hw htrun hf hcrc hsplit.symm htrailer hne)

/-- Settles O55. -/
theorem oneCorruptedByteIsDiscarded : Obligations.OneCorruptedByteIsDiscarded := by
  intro s cw cw' fl vals vals' data data' pre post b b' hw hiso hinv hs hrun hcw hmax hcrc hlen hdata _ harrived hne
  have htrailer : (beBytes 4 (crc32 s.cfg (pre ++ b :: post)).toNat).length = 4 := length_beBytes 4 _
  have hshape := contentBody_append_decodedShape vals' hw hcw hmax (hlen.trans_le hdata) hcrc htrailer
  rw [harrived] at hshape
  have hdetects : crc32 s.cfg (pre ++ b' :: post) ≠ be32 (beBytes 4 (crc32 s.cfg (pre ++ b :: post)).toNat) := by
    rw [be32_beBytes, crc32, crc32, hiso]
    exact referenceCrcDetectsAnyOneByteChange pre post b' b hne.symm
  have hcount : (pre ++ b' :: post).length = pre.length + 1 + post.length := by simp; omega
  rw [exec_ingest, ingest_mismatch hw (hinv.atReset hs hrun) hshape hcrc htrailer hdetects, finish_ok, hcount]
  rfl

end Sys2Proof.Machine
end

section
/-! The host interface (45_dispatch.md): a step performs what its next input decodes to (R206, R208), and `DISCARD` (R203,
R228). -/

namespace Sys2Proof.Machine

/-! ### The step on one input (R206, R208) -/

/-- Settles O10: the port decode is total, so what it answers is the operation that the step takes. -/
theorem stepRunsTheDecodedInstruction : Obligations.StepRunsTheDecodedInstruction := by
  intro s inp rest i hw hi hdec _
  have hport : decodePort s.cfg s.run inp = i := Except.ok.inj hdec
  rw [step_of_input_eq_cons hw hi, hport]

/-! ### `DISCARD` (R203, R228) -/

theorem exec_discard (c : DiscardCause) (s : State) : exec (.discard c) s = .next (discardFrame c s) := rfl

theorem discardFrame_eq_afterDiscard (c : DiscardCause) (s : State) : discardFrame c s = s.afterDiscard c.toCause := rfl

/-- Settles O50. -/
theorem discardReportsThenClears : Obligations.DiscardReportsThenClears :=
  fun d s => (exec_discard d s).trans (congrArg _ (discardFrame_eq_afterDiscard d s))

end Sys2Proof.Machine
end

section
/-! What a byte that ends a frame leaves (R204, R228, R230), from every state. The idea: a passed byte emits nothing, or it emits
something other than a RESYNC and resets (`FrameEnd`); a RESYNC comes from the sync alone, which goes on to `ReadControlWord`. -/

namespace Sys2Proof.Machine

/-- What a passed byte can leave, where `before` are the events before it: no new event, or one that is no RESYNC, at reset. -/
inductive FrameEnd (before : List Event) (t : State) : Prop where
  | silent (hevents : t.events = before)
  | ends (e : Event) (hevents : t.events = before ++ [e]) (hreset : t.AtReset)
      (hcause : ∀ st len, e ≠ .diag .resync st len)

section
variable {b : Byte} {s t : State}

theorem discardFrame_frameEnd {c : DiscardCause} (hc : c ≠ .resync) (s : State) :
    FrameEnd s.events (discardFrame c s) := by
  refine .ends _ (discardFrame_events c s) (atReset_frameReset _) fun st len he => ?_
  cases c with
  | resync => exact hc rfl
  | hdrBound => cases he
  | crcMismatch => cases he

theorem dispatchFrame_frameEnd (h : dispatchFrame s = .ok t) : FrameEnd s.events t := by
  obtain ⟨frame, -, rfl⟩ := dispatchFrame_eq_ok.mp h
  exact .ends _ rfl (atReset_frameReset _) nofun

theorem dataDone_frameEnd (h : dataDone s = .ok t) : FrameEnd s.events t := by
  rcases dataDone_eq_ok.mp h with ⟨-, rfl⟩ | ⟨-, -, rfl⟩ | ⟨-, -, h⟩
  · exact .silent rfl
  · exact .silent rfl
  · exact dispatchFrame_frameEnd h

theorem hdrDone_frameEnd (h : hdrDone s = .ok t) : FrameEnd s.events t := by
  rcases hdrDone_eq_ok.mp h with ⟨-, rfl⟩ | ⟨-, -, h⟩ | ⟨-, -, -, rfl⟩ | ⟨-, -, -, h⟩
  · exact .silent rfl
  · exact (dataDone_frameEnd h :)
  · exact .silent rfl
  · exact dispatchFrame_frameEnd h

theorem crcComplete_frameEnd (h : crcComplete s = .ok t) : FrameEnd s.events t := by
  rcases crcComplete_eq_ok.mp h with ⟨-, h⟩ | ⟨-, rfl⟩
  · exact dispatchFrame_frameEnd h
  · exact discardFrame_frameEnd (by decide) s

theorem stCw_frameEnd (h : stCw b s = .ok t) : FrameEnd s.events t := by
  rcases stCw_eq_ok.mp h with ⟨-, rfl⟩ | ⟨-, -, ⟨-, rfl⟩ | ⟨-, h⟩⟩
  · exact discardFrame_frameEnd (by decide) s
  · exact .silent rfl
  · obtain ⟨_, -, h⟩ := cwComplete_eq_ok.mp h
    exact (hdrDone_frameEnd h :)

theorem stHdr_frameEnd (h : stHdr b s = .ok t) : FrameEnd s.events t := by
  rcases stHdr_eq_ok.mp h with ⟨-, rfl⟩ | ⟨-, -, u, hu, h⟩
  · exact discardFrame_frameEnd (by decide) s
  · have hevents : u.events = s.events := (dlenLatch_sameBytes hu).events_eq
    exact hevents ▸ hdrDone_frameEnd h

theorem stData_frameEnd (h : stData b s = .ok t) : FrameEnd s.events t := by
  obtain ⟨-, h⟩ := stData_eq_ok.mp h
  exact (dataDone_frameEnd h :)

theorem stCrc_frameEnd (h : stCrc b s = .ok t) : FrameEnd s.events t := by
  obtain ⟨-, ⟨-, rfl⟩ | ⟨-, h⟩⟩ := stCrc_eq_ok.mp h
  · exact .silent rfl
  · exact (crcComplete_frameEnd h :)

theorem passByte_frameEnd (h : passByte b s = .ok t) : FrameEnd s.events t := by
  rcases passByte_cases h with ⟨-, rfl⟩ | ⟨-, h⟩ | ⟨-, h⟩ | ⟨-, h⟩ | ⟨-, h⟩
  · exact .silent rfl
  · exact stCw_frameEnd h
  · exact stHdr_frameEnd h
  · exact stData_frameEnd h
  · exact stCrc_frameEnd h

/-- One byte, from every state: a passed byte's end, or a sync, which cuts a frame in progress or says nothing. -/
theorem byteStep_frameEnd (h : byteStep b s = .ok t) :
    FrameEnd s.events t
    ∨ (s.state ≠ .findStart ∧ t.AtSync ∧ t.events = s.events ++ [.diag .resync s.state s.bufLen]) := by
  rcases byteStep_cases h with ⟨-, -, h⟩ | ⟨-, -, -, rfl⟩ | ⟨-, -, h⟩ | ⟨-, h⟩
  · have hsync := ldrSync_atSync h
    rcases ldrSync_eq_ok.mp h with ⟨-, rfl⟩ | ⟨hs, rfl⟩
    · exact .inl (.silent rfl)
    · exact .inr ⟨hs, hsync, rfl⟩
  · exact .inl (.silent rfl)
  · exact .inl (passByte_frameEnd h :)
  · exact .inl (passByte_frameEnd h :)

end

/-- Settles O21: the event is a passed byte's, which is no RESYNC and comes with the reset, or the sync's, which is one. -/
theorem everyFrameEndLeavesTheResetState : Obligations.EveryFrameEndLeavesTheResetState := by
  intro s t b rest e hi h he
  rcases byteStep_frameEnd (byteStep_of_step hi h) with (hevents | ⟨e', hevents, hreset, hcause⟩) | ⟨hs, hsync, hevents⟩
  · simp [hevents] at he
  · obtain rfl : e' = e := by simpa [hevents] using he
    exact ⟨fun st len heq => absurd heq (hcause st len), fun _ => hreset⟩
  · obtain rfl : .diag .resync s.state s.bufLen = e := by simpa [hevents] using he
    refine ⟨fun st len heq => ?_, fun hne => absurd rfl (hne s.state s.bufLen)⟩
    obtain ⟨-, rfl, rfl⟩ := Event.diag.inj heq
    exact ⟨hsync, rfl, rfl, hs⟩

end Sys2Proof.Machine
end

section
/-! `INGEST` is the fold of the step (R206). The idea: no byte operation reads what still waits at the inputs (`InputBlind`), so the
bytes of a chunk may wait there while the ones before them are taken (log 3, log 16). -/

namespace Sys2Proof.Machine

/-! ### No byte operation reads the inputs -/

/-- The state with other inputs waiting (log 3). -/
def State.withInput (s : State) (l : List Input) : State := { s with input := l }

/-- The operation neither reads nor writes the inputs: with others waiting it does the same. -/
def InputBlind (f : State → Res State) : Prop := ∀ s l, f (s.withInput l) = (f s).map (·.withInput l)

theorem InputBlind.ok {g : State → State} (hg : ∀ s l, g (s.withInput l) = (g s).withInput l) :
    InputBlind fun s => .ok (g s) := fun s l => congrArg Except.ok (hg s l)

theorem InputBlind.comp {f : State → Res State} {g : State → State} (hf : InputBlind f)
    (hg : ∀ s l, g (s.withInput l) = (g s).withInput l) : InputBlind fun s => f (g s) :=
  fun s l => (congrArg f (hg s l)).trans (hf (g s) l)

theorem InputBlind.ite {p : State → Prop} [∀ s, Decidable (p s)] {f g : State → Res State}
    (hp : ∀ s l, p (s.withInput l) ↔ p s) (hf : InputBlind f) (hg : InputBlind g) :
    InputBlind fun s => if p s then f s else g s := by
  intro s l
  by_cases h : p s
  · simp only [h, (hp s l).mpr h, if_true, hf s l]
  · simp only [h, mt (hp s l).mp h, if_false, hg s l]

theorem InputBlind.bind {f g : State → Res State} (hf : InputBlind f) (hg : InputBlind g) :
    InputBlind fun s => f s >>= g := by
  intro s l
  simp only [hf s l]
  cases f s with
  | ok u => exact hg u l
  | error e => rfl

/-- A value that is read without the inputs, then an operation that uses it. -/
theorem InputBlind.read {α : Type} {x : State → Res α} {k : α → State → Res State} (hx : ∀ s l, x (s.withInput l) = x s)
    (hk : ∀ a, InputBlind (k a)) : InputBlind fun s => x s >>= fun a => k a s := by
  intro s l
  simp only [hx s l]
  cases x s with
  | ok a => exact hk a s l
  | error e => rfl

theorem discardFrame_withInput (c : DiscardCause) (s : State) (l : List Input) :
    discardFrame c (s.withInput l) = (discardFrame c s).withInput l := rfl

theorem bufAppend_inputBlind (b : Byte) : InputBlind (bufAppend b) :=
  .ite (fun _ _ => Iff.rfl) (.ok fun _ _ => rfl) (fun _ _ => rfl)

theorem dispatchFrame_inputBlind : InputBlind dispatchFrame :=
  .read (fun _ _ => rfl) fun _ => .ok fun _ _ => rfl

theorem dataDone_inputBlind : InputBlind dataDone :=
  .ite (fun _ _ => Iff.rfl) (.ite (fun _ _ => Iff.rfl) (.ok fun _ _ => rfl) dispatchFrame_inputBlind) (.ok fun _ _ => rfl)

theorem hdrDone_inputBlind : InputBlind hdrDone :=
  .ite (fun _ _ => Iff.rfl)
    (.ite (fun _ _ => Iff.rfl) (dataDone_inputBlind.comp fun _ _ => rfl)
      (.ite (fun _ _ => Iff.rfl) (.ok fun _ _ => rfl) dispatchFrame_inputBlind))
    (.ok fun _ _ => rfl)

theorem dlenLatch_inputBlind : InputBlind dlenLatch :=
  .ite (fun _ _ => Iff.rfl)
    (.ite (fun _ _ => Iff.rfl) (.read (fun _ _ => rfl) fun _ => .ok fun _ _ => rfl) (.ok fun _ _ => rfl))
    (.ok fun _ _ => rfl)

theorem cwComplete_inputBlind : InputBlind cwComplete :=
  .bind (.read (fun _ _ => rfl) fun _ => .ok fun _ _ => rfl) (hdrDone_inputBlind.comp fun _ _ => rfl)

theorem crcComplete_inputBlind : InputBlind crcComplete :=
  .read (fun _ _ => rfl) fun _ =>
    .ite (fun _ _ => Iff.rfl) dispatchFrame_inputBlind (.ok (discardFrame_withInput .crcMismatch))

theorem stCw_inputBlind (b : Byte) : InputBlind (stCw b) :=
  .ite (fun _ _ => Iff.rfl) (.ok (discardFrame_withInput .hdrBound))
    (.bind (bufAppend_inputBlind b)
      (.ite (fun _ _ => Iff.rfl) (cwComplete_inputBlind.comp fun _ _ => rfl) (.ok fun _ _ => rfl)))

theorem stHdr_inputBlind (b : Byte) : InputBlind (stHdr b) :=
  .ite (fun _ _ => Iff.rfl) (.ok (discardFrame_withInput .hdrBound))
    (.bind (bufAppend_inputBlind b) (.bind (dlenLatch_inputBlind.comp fun _ _ => rfl) hdrDone_inputBlind))

theorem stData_inputBlind (b : Byte) : InputBlind (stData b) :=
  .bind (bufAppend_inputBlind b) (dataDone_inputBlind.comp fun _ _ => rfl)

theorem stCrc_inputBlind (b : Byte) : InputBlind (stCrc b) :=
  .bind (bufAppend_inputBlind b)
    (.ite (fun _ _ => Iff.rfl) (crcComplete_inputBlind.comp fun _ _ => rfl) (.ok fun _ _ => rfl))

theorem passByte_inputBlind (b : Byte) : InputBlind (passByte b) := by
  intro s l
  have hstate : (s.withInput l).state = s.state := rfl
  unfold passByte
  rw [hstate]
  cases s.state with
  | findStart => rfl
  | readControlWord => exact stCw_inputBlind b s l
  | readHeader => exact stHdr_inputBlind b s l
  | readData => exact stData_inputBlind b s l
  | readChecksum => exact stCrc_inputBlind b s l

theorem ldrSync_inputBlind (b : Byte) : InputBlind (ldrSync b) := by
  intro s l
  by_cases hs : s.state = .findStart
  · rw [ldrSync_eq_ok.mpr (.inl ⟨hs, rfl⟩), (ldrSync_eq_ok (s := s.withInput l)).mpr (.inl ⟨hs, rfl⟩)]
    rfl
  · rw [ldrSync_eq_ok.mpr (.inr ⟨hs, rfl⟩), (ldrSync_eq_ok (s := s.withInput l)).mpr (.inr ⟨hs, rfl⟩)]
    rfl

/-- The filter, too, reads the count and the byte only (R81). -/
theorem byteStep_inputBlind (b : Byte) : InputBlind (byteStep b) := by
  intro s l
  change filterByte (filterOp s.cfg s.run b) b (s.withInput l) = _
  unfold byteStep
  cases filterOp s.cfg s.run b with
  | ldrSync => exact ldrSync_inputBlind b s l
  | ldrPass => exact (passByte_inputBlind b).comp (g := fun s => { s with run := s.run + 1 }) (fun _ _ => rfl) s l
  | escDrop => rfl
  | escPass => exact (passByte_inputBlind b).comp (g := fun s => { s with run := 0 }) (fun _ _ => rfl) s l
  | litPass => exact (passByte_inputBlind b).comp (g := fun s => { s with run := 0 }) (fun _ _ => rfl) s l

/-! ### The fold (R206) -/

theorem State.withInput_of_eq {s : State} {l : List Input} (h : s.input = l) : s.withInput l = s := by
  subst h; rfl

theorem run_succ_of_next {M : Host.Core} {s t : M.State} (k : Nat) (h : M.step s = .next t) :
    M.run (k + 1) s = M.run k t := by
  rw [Host.Core.run, h]

theorem run_succ_of_fault {M : Host.Core} {s : M.State} {f : M.Fault} (k : Nat) (h : M.step s = .fault f) :
    M.run (k + 1) s = .fault f := by
  rw [Host.Core.run, h]

/-- The bytes at the inputs, taken one a step, are the fold over them, whatever waits behind them (log 3, log 16). -/
theorem core_run_bytes (bs : List Byte) (rest : List Input) {s : State} (hw : s.cfg.wf = true)
    (hi : s.input = bs.map .byte ++ rest) :
    Sys2Proof.core.run bs.length s = finish (ingest bs (s.withInput rest)) := by
  induction bs generalizing s with
  | nil => exact congrArg Host.Outcome.next (State.withInput_of_eq hi).symm
  | cons b bs ih =>
    have hstep : step s = finish ((byteStep b (s.withInput rest)).map (·.withInput (bs.map .byte ++ rest))) := by
      rw [step_byte hw hi, ← byteStep_inputBlind]; rfl
    cases hb : byteStep b (s.withInput rest) with
    | ok u =>
      obtain ⟨hcfg, hinput, -⟩ := byteStep_extendedBy hb
      rw [hb] at hstep
      rw [List.length_cons, run_succ_of_next (M := Sys2Proof.core) _ hstep, ih (s := u.withInput _) (hcfg ▸ hw) rfl,
        ingest, hb, res_ok_bind]
      exact congrArg (fun v => finish (ingest bs v)) (State.withInput_of_eq hinput)
    | error f =>
      rw [hb] at hstep
      rw [List.length_cons, run_succ_of_fault (M := Sys2Proof.core) _ hstep, ingest, hb]
      rfl

/-- The invariant is kept along a chunk (R33, R206). -/
theorem ingest_inv {bs : List Byte} {s t : State} (h : ingest bs s = .ok t) : s.cfg.wf = true → s.Inv → t.Inv :=
  ingest_induction (R := fun s t => s.cfg.wf = true → s.Inv → t.Inv) (fun _ _ hinv => hinv)
    (fun hb ih hw hinv => ih ((byteStep_extendedBy hb).1 ▸ hw) (byteStep_inv hb hw hinv)) h

/-- Settles O53: the bytes at the inputs by their fold, the chunk by its decode, completion by the invariant along the chunk. -/
theorem ingestIsTheFoldOfTheStep : Obligations.IngestIsTheFoldOfTheStep := by
  refine ⟨fun bs s rest hw hi => core_run_bytes bs rest hw hi, fun bs s rest hw hi => step_of_input_eq_cons hw hi,
    fun bs s hw hinv => ?_⟩
  obtain ⟨t, ht⟩ := ingest_completes bs hw hinv
  exact ⟨t, finish_eq_next.mpr ht, ingest_inv ht hw hinv⟩

end Sys2Proof.Machine
end

section
/-! The events and causes of one byte (60_exceptions.md). The ideas: what a byte can add to the events is said once
(`ByteEvents`); a byte passed in `ReadHeader` goes to `ST_HDR`, whose guard at `MAX_HDR` is the bound, and a good state there is
never beyond it. -/

namespace Sys2Proof.Machine

/-! ### The causes of the block (R220, R224) -/

theorem toCause_cases (c : DiscardCause) :
    c.toCause = .resync ∨ c.toCause = .hdrBound ∨ c.toCause = .crcMismatch := by
  cases c with
  | resync => exact .inl rfl
  | hdrBound => exact .inr (.inl rfl)
  | crcMismatch => exact .inr (.inr rfl)

/-- What the byte adds is one event at most, and of the block's own causes. -/
theorem ByteEvents.atMostOne {full : Prop} {before after : List Event} (h : ByteEvents full before after) :
    after = before
    ∨ (∃ frame fl hl dl, after = before ++ [.dispatch frame fl hl dl])
    ∨ (∃ cause st len, after = before ++ [.diag cause st len]
        ∧ (cause = .resync ∨ cause = .hdrBound ∨ cause = .crcMismatch)) := by
  cases h with
  | silent => exact .inl rfl
  | handsOver frame fl hl dl => exact .inr (.inl ⟨frame, fl, hl, dl, rfl⟩)
  | discards cause st len => exact .inr (.inr ⟨cause.toCause, st, len, rfl, toCause_cases cause⟩)

/-- Settles O20. -/
theorem atMostOneEventPerByte : Obligations.AtMostOneEventPerByte :=
  fun _ _ _ _ hi h => (byteStep_byteEvents (byteStep_of_step hi h)).atMostOne

/-! ### The header bound (R222) -/

/-- A byte that neither syncs nor is dropped reaches the state machine, with the count updated (R101, R104, R105). -/
theorem exists_passByte_of_passes {b : Byte} {s t : State} (hp : s.Passes b) (h : byteStep b s = .ok t) :
    ∃ r, passByte b { s with run := r } = .ok t := by
  obtain ⟨hsync, hdrop⟩ := hp
  rcases byteStep_cases h with ⟨hb, hrun, -⟩ | ⟨-, he, hrun, -⟩ | ⟨-, -, h⟩ | ⟨-, h⟩
  · exact absurd ⟨hb, hrun⟩ hsync
  · exact absurd ⟨he, hrun⟩ hdrop
  · exact ⟨_, h⟩
  · exact ⟨_, h⟩

theorem passByte_of_readHeader {s : State} (b : Byte) (hs : s.state = .readHeader) : passByte b s = stHdr b s := by
  rw [passByte, hs]

theorem stHdr_of_maxHdr_le (b : Byte) {s : State} (hfull : s.cfg.maxHdr ≤ s.hdrIdx) :
    stHdr b s = .ok (discardFrame .hdrBound s) := stHdr_eq_ok.mpr (.inl ⟨hfull, rfl⟩)

/-- At the bound a passed header byte discards the frame, with the length and the state before it (R123, R203). -/
theorem byteStep_of_readHeader_full {b : Byte} {s t : State} (hs : s.state = .readHeader)
    (hfull : s.cfg.maxHdr ≤ s.hdrIdx) (hp : s.Passes b) (h : byteStep b s = .ok t) :
    t.events = s.events ++ [.diag .hdrBound .readHeader s.bufLen] ∧ t.AtReset := by
  obtain ⟨r, hpass⟩ := exists_passByte_of_passes hp h
  rw [passByte_of_readHeader (s := { s with run := r }) b hs,
    stHdr_of_maxHdr_le (s := { s with run := r }) b hfull] at hpass
  obtain rfl := ok_eq_ok.mp hpass
  rw [← hs]
  exact ⟨discardFrame_events .hdrBound _, atReset_frameReset _⟩

/-- Settles O31: below the bound no header is full, at it the guard trips; a header byte still to come lies inside the header,
so that header is longer than `MAX_HDR`. -/
theorem headerBoundFiresExactlyAtMaxHdr : Obligations.HeaderBoundFiresExactlyAtMaxHdr := by
  intro s t b rest _ hinv hs hi hp h
  obtain ⟨hh, hne⟩ := (inv_iff_of_readHeader hs).mp hinv
  obtain ⟨hlen, -⟩ := hh.resolved
  have hmax := hh.le_maxHdr
  have hle := hh.le_hdrLen
  have hbyte := byteStep_of_step hi h
  have hbound (hidx : s.hdrIdx = s.cfg.maxHdr) :
      t.events = s.events ++ [.diag .hdrBound .readHeader s.cfg.maxHdr] ∧ t.AtReset := by
    rw [← hidx, hh.hdrIdx_eq]
    exact byteStep_of_readHeader_full (s := { s with input := rest }) hs hidx.ge hp hbyte
  refine ⟨⟨fun ⟨st, len, hevents⟩ => ?_, fun hidx => have ⟨hevents, _⟩ := hbound hidx; ⟨_, _, hevents⟩⟩, fun hidx => ?_⟩
  · by_contra hidx
    refine (byteStep_byteEvents hbyte).ne_hdrBound ?_ st len hevents
    rintro ⟨-, hfull⟩
    exact hidx (hmax.antisymm hfull)
  · obtain ⟨hevents, hreset⟩ := hbound hidx
    exact ⟨hevents, hreset, by omega⟩

end Sys2Proof.Machine
end

section
/-! The hardware reset (70_reset_and_hazards.md). The idea: `HW_RESET` has the meaning of `FRAME_RESET` (D16), and a step on the
reset input is that operation in the state without the input. -/

namespace Sys2Proof.Machine

/-- The hardware reset is the frame reset (R250). -/
theorem exec_hwReset (s : State) : exec .hwReset s = .next (frameReset s) := rfl

theorem decodePort_reset (c : Cfg) (run : Nat) : decodePort c run .reset = .hwReset := rfl

/-- A reset input selects `HW_RESET`, whatever the parse state (log 3). -/
theorem step_reset {s : State} {rest : List Input} (hw : s.cfg.wf = true) (hi : s.input = .reset :: rest) :
    step s = exec .hwReset { s with input := rest } := by
  rw [step_of_input_eq_cons hw hi, decodePort_reset]

theorem cleared_with_input (s : State) (rest : List Input) :
    State.cleared { s with input := rest } = { s.cleared with input := rest } := rfl

/-- Settles O3: the operation is the frame reset, which `cleared` spells out; the step performs it on the inputs that remain. -/
theorem hardwareResetLosesTheFrameSilently : Obligations.HardwareResetLosesTheFrameSilently := by
  have hexec (s : State) : exec .hwReset s = .next s.cleared :=
    (exec_hwReset s).trans (congrArg _ (frameReset_eq_cleared s))
  refine ⟨hexec, fun s rest hw hi => ?_⟩
  calc step s = exec .hwReset { s with input := rest } := step_reset hw hi
    _ = .next (State.cleared { s with input := rest }) := hexec _
    _ = .next { s.cleared with input := rest } := congrArg _ (cleared_with_input s rest)

end Sys2Proof.Machine
end
